-- ==== Sys2Proof/Word.lean ====
section
/-! DEFINITION. The word types of the heater-control core (spec 00_scope R9, 30_encoding R71, R81). -/

namespace Sys2Proof

/-- "u8": an unsigned integer of 8 bits (00_scope R9); a DutyValue (10_state R24). -/
abbrev Byte := BitVec 8

/-- A SensorCode, 0 to 255 (00_scope glossary, 30_encoding R72). -/
abbrev SensorCode := BitVec 8

/-- A ControlInput, an unsigned level. The event word carries `CI_WIDTH` bits of it (30_encoding R70), a parameter of
the configuration; every rule tests only whether it is 0 (R72, 93_implementation_defined U3), so its width is a check
of WellFormed and not of the type. -/
abbrev ControlInput := Nat

/-- The event word EW = {rst, sample, reload, ci, sc} of an instance with the given `CI_WIDTH`: three event bits, the
control input, the sensor code. At the default width 2 these are the 13 bits of 30_encoding R71; the layout at another
width is the model's own (log 12). -/
abbrev EventWord (ciWidth : Nat) := BitVec (3 + ciWidth + 8)

/-- A binary32 pattern: bit 31 the sign, bits 30:23 the exponent, bits 22:0 the fraction (30_encoding R78). -/
abbrev F32 := BitVec 32

end Sys2Proof
end

