-- ==== Sys2Proof/Syntax.lean ====
section
/-! DEFINITION. The five operations of the block, one constructor per row of spec/opcode_table.json
(30_encoding R73, 43_scheduler_operations R150 to R154). -/

namespace Sys2Proof

/-- What one event word asks for. Fields an operation ignores (30_encoding R75) are no part of it. -/
inductive Instr where
  /-- `RST`: establish the initial state (R150). -/
  | rst
  /-- `NOP`: a step at which no event occurs (R151). -/
  | nop
  /-- `RELOAD`: the duty-register reload event (R152). -/
  | reload
  /-- `SAMPLE ci, sc`: the period-boundary sampling event (R153). -/
  | sample (ci : ControlInput) (sc : SensorCode)
  /-- `TICK ci, sc`: reload and sampling event at the same boundary (R154). -/
  | tick (ci : ControlInput) (sc : SensorCode)
deriving DecidableEq, Repr

end Sys2Proof
end

