-- ==== Sys2Proof/WellFormed.lean ====
section
/-! DEFINITION. Which instructions have an event word: the operand ranges of 30_encoding R71 and R79. -/

namespace Sys2Proof

/-- "Operands are … integers in the field's range" (30_encoding R79): `ci` fits the instance's `CI_WIDTH` bits.
`sc` fits its 8 bits by its type. -/
def Instr.wellFormed (ciWidth : Nat) : Instr → Bool
  | .rst => true
  | .nop => true
  | .reload => true
  | .sample ci _ => decide (ci < 2 ^ ciWidth)
  | .tick ci _ => decide (ci < 2 ^ ciWidth)

end Sys2Proof
end

