-- ==== Sys2Proof/Decode.lean ====
section
/-! DEFINITION. For any `CI_WIDTH` (00_scope R6), the event word's fields, its decoding (total) and encoding, and the opcode table (spec
30_encoding R70 to R77, spec/opcode_table.json). -/

namespace Sys2Proof

/-- `rst`, the word's highest bit: `EW[12]` at the default width (R71). -/
def rstBit {ciWidth : Nat} (w : EventWord ciWidth) : Bool := w.getLsbD (10 + ciWidth)

/-- `sample`: `EW[11]` at the default width. -/
def sampleBit {ciWidth : Nat} (w : EventWord ciWidth) : Bool := w.getLsbD (9 + ciWidth)

/-- `reload`: `EW[10]` at the default width. -/
def reloadBit {ciWidth : Nat} (w : EventWord ciWidth) : Bool := w.getLsbD (8 + ciWidth)

/-- `ci`, the `CI_WIDTH` bits above the sensor code: `zext(EW[9:8])` at the default width (R72). -/
def ciField {ciWidth : Nat} (w : EventWord ciWidth) : ControlInput := (w.extractLsb' 8 ciWidth).toNat

/-- `sc = zext(EW[7:0])` (R72). -/
def scField {ciWidth : Nat} (w : EventWord ciWidth) : SensorCode := w.extractLsb' 0 8

/-- The decode of R73: `rst` selects `RST` whatever the other bits hold; total, over all 8192 words of the default
width and over the words of any other (R76). -/
def decode {ciWidth : Nat} (w : EventWord ciWidth) : Instr :=
  if rstBit w then .rst
  else
    match sampleBit w, reloadBit w with
    | false, false => .nop
    | false, true => .reload
    | true, false => .sample (ciField w) (scField w)
    | true, true => .tick (ciField w) (scField w)

/-- The input ports but for `clk` (R70), at definite levels. -/
structure Inputs (ciWidth : Nat) where
  rst : Bool
  sample : Bool
  reload : Bool
  ci : BitVec ciWidth
  sc : SensorCode
deriving DecidableEq, Repr

/-- `EW = {rst, sample, reload, ci, sc}` (R71), `{a, b}` having `a` at the more significant end (00_scope R9). -/
def Inputs.word {ciWidth : Nat} (p : Inputs ciWidth) : EventWord ciWidth :=
  BitVec.ofBool p.rst ++ BitVec.ofBool p.sample ++ BitVec.ofBool p.reload ++ p.ci ++ p.sc

/-- The inputs that ask for an operation, 0 in the operand fields of `RST`, `NOP` and `RELOAD`: "the canonical
spelling" (R75). DESIGN CHOICE (log 21): of `SAMPLE` and `TICK` the field `sc` is the operand as written also when `ci`
is 0 and R75 counts `sc` as ignored. -/
def canonicalInputs (ciWidth : Nat) : Instr → Inputs ciWidth
  | .rst => { rst := true, sample := false, reload := false, ci := 0, sc := 0 }
  | .nop => { rst := false, sample := false, reload := false, ci := 0, sc := 0 }
  | .reload => { rst := false, sample := false, reload := true, ci := 0, sc := 0 }
  | .sample ci sc => { rst := false, sample := true, reload := false, ci := BitVec.ofNat ciWidth ci, sc := sc }
  | .tick ci sc => { rst := false, sample := true, reload := true, ci := BitVec.ofNat ciWidth ci, sc := sc }

/-- The event word of an operation in an instance's layout (R71, R73, R79), in the spelling of `canonicalInputs`
(log 21). -/
def encode (ciWidth : Nat) (i : Instr) : EventWord ciWidth := (canonicalInputs ciWidth i).word

/-- A row of spec/opcode_table.json: a word `w` selects it when `w & mask == match`, over the
13-bit event word (R73). -/
structure OpRow where
  mnemonic : String
  matchBits : EventWord 2
  mask : EventWord 2
deriving DecidableEq, Repr

/-- spec/opcode_table.json and the table of R73, row by row. -/
def opcodeTable : List OpRow :=
  [ ⟨"RST", 0x1000#13, 0x1000#13⟩,
    ⟨"NOP", 0x0000#13, 0x1C00#13⟩,
    ⟨"RELOAD", 0x0400#13, 0x1C00#13⟩,
    ⟨"SAMPLE", 0x0800#13, 0x1C00#13⟩,
    ⟨"TICK", 0x0C00#13, 0x1C00#13⟩ ]

def OpRow.selects (r : OpRow) (w : EventWord 2) : Bool := w &&& r.mask == r.matchBits

/-- The table's name of an operation. -/
def Instr.mnemonic : Instr → String
  | .rst => "RST"
  | .nop => "NOP"
  | .reload => "RELOAD"
  | .sample _ _ => "SAMPLE"
  | .tick _ _ => "TICK"

/-- Why something on the inputs is no event word. -/
inductive DecodeRefusal where
  /-- A number with more bits than the event word, at the default width one above 0x1FFF (R71). -/
  | notAnEventWord
  /-- An undriven or unknown level on the named port (R77, 93 U4). -/
  | undefinedInput (port : String)
deriving DecidableEq, Repr

/-- "Event words are written … 0x0000 to 0x1FFF" (R71), at the default width. -/
def eventWordOfNat (ciWidth n : Nat) : Except DecodeRefusal (EventWord ciWidth) :=
  if n < 2 ^ (3 + ciWidth + 8) then .ok (BitVec.ofNat (3 + ciWidth + 8) n) else .error .notAnEventWord

/-- The host's decoding question: the operation of an instruction whose bits are `w`, numbered as the table numbers
them, the bits from `nbits` up being 0. The table is over the event word of the default width. The three bits above a 13-bit event word in two whole bytes are no part of
it: where one is 1 there is no event word (log 18). -/
def decodeTableWord (nbits w : Nat) : Option Instr :=
  match eventWordOfNat 2 (w % 2 ^ nbits) with
  | .ok e => some (decode e)
  | .error _ => none

/-- A level on an input wire: definite, or undriven or unknown (R77). -/
inductive Level where
  | low
  | high
  | undefined
deriving DecidableEq, Repr

def Level.bit : Level → Option Bool
  | .low => some false
  | .high => some true
  | .undefined => none

/-- The input wires themselves, `ci` and `sc` with the most significant wire first. -/
structure Pins (ciWidth : Nat) where
  rst : Level
  sample : Level
  reload : Level
  ci : Vector Level ciWidth
  sc : Vector Level 8
deriving DecidableEq, Repr

/-- The number on a bundle of wires, most significant first, where every level is definite. -/
def levelsValue : List Level → Option Nat
  | [] => some 0
  | l :: rest =>
    match l.bit, levelsValue rest with
    | some b, some n => some (if b then 2 ^ rest.length + n else n)
    | _, _ => none

/-- The event word on the wires; "a model takes only definite event words and refuses anything else" (R77, 93 U4;
log 19). -/
def Pins.read {ciWidth : Nat} (p : Pins ciWidth) : Except DecodeRefusal (EventWord ciWidth) :=
  match p.rst.bit, p.sample.bit, p.reload.bit, levelsValue p.ci.toList, levelsValue p.sc.toList with
  | some r, some s, some l, some c, some d =>
    .ok ({ rst := r, sample := s, reload := l, ci := BitVec.ofNat ciWidth c, sc := BitVec.ofNat 8 d } :
        Inputs ciWidth).word
  | none, _, _, _, _ => .error (.undefinedInput "rst")
  | some _, none, _, _, _ => .error (.undefinedInput "sample")
  | some _, some _, none, _, _ => .error (.undefinedInput "reload")
  | some _, some _, some _, none, _ => .error (.undefinedInput "ci")
  | some _, some _, some _, some _, none => .error (.undefinedInput "sc")

end Sys2Proof
end

