-- ==== Sys2Proof/Config.lean ====
section
/-! DEFINITION. What an implementation fixes (spec 00_scope R6, R12) and the values the spec leaves open. -/

namespace Sys2Proof

/-- `NUM`: the numerics the model takes as an argument, the primitives of 00_scope R12 by their names there.
`F32.numerics` (R13) and `Exact.numerics` (R14) are its two instantiations. `isFinite` says which values count
as finite numbers for 00_scope R7 item (d). -/
structure Numerics (α : Type) where
  /-- `num(n)`: the Num equal to a literal, rounded in a rounded instantiation. -/
  num : Rat → α
  fadd : α → α → α
  fsub : α → α → α
  fmul : α → α → α
  fhalf : α → α
  fabs : α → α
  flt : α → α → Bool
  fgt : α → α → Bool
  /-- `ffloor(a)`: the greatest integer not above `a`. -/
  ffloor : α → Int
  isFinite : α → Bool

/-- `CAL`: 256 entries of Num, populated at every index (20_memory R50, R58). -/
structure CalTable (α : Type) where
  entries : List α
  full : entries.length = 256
deriving DecidableEq, Repr

/-- The configuration parameters of 00_scope R6, the constants of an instance: no operation writes them (R5).
`periodLit` is the exact `P` that R7 item (c) speaks of; `period` and `invP` are the stored constants. -/
structure Params (α : Type) where
  /-- The exact control period, a literal (R7 item (c): "the exact `P`"). -/
  periodLit : Rat
  /-- `P`, the `dt` of every PID step. -/
  period : α
  /-- `INV_P`, the stored reciprocal of the period. -/
  invP : α
  kp : α
  ki : α
  kd : α
  /-- `SetPoint`, the single active target (R8). -/
  setPoint : α
  /-- `DUTY_MIN`. -/
  dutyMin : Nat
  /-- `DUTY_MAX`. -/
  dutyMax : Nat
  /-- `SET_ERROR_THRESHOLD`. -/
  threshold : α
  /-- `CAL`, the calibration table. -/
  cal : CalTable α
  /-- `SETPOINT_TABLE`, carried as data that no rule reads (R8, 20_memory R52). -/
  setPointTable : Vector α 4
  /-- `CI_WIDTH`, the number of bits of the control input (decision D5, 93_implementation_defined U3). -/
  ciWidth : Nat
deriving DecidableEq, Repr

/-- FREE VALUE: what `temp_reg` holds after a reset (10_state R34, 93 U2: "any value"); the argument is the
draw's number (log 5). -/
opaque Config.freeTemp : Nat → F32

/-- FREE VALUE: the same under the EXACT numerics (log 5). -/
opaque Config.freeTempExact : Nat → Rat

/-- FREE VALUE: sign and payload of a NaN a binary32 primitive produces, by the primitive's number and its
operands (00_scope R13 says only that NaNs exist; log 7). -/
opaque Config.freeNaN : Nat → F32 → F32 → F32

/-- FREE VALUE: `ffloor` of a NaN or an infinity, to which the spec gives no value (93 U1, U11; log 8). -/
opaque Config.freeFloor : F32 → Int

end Sys2Proof
end

