-- ==== Sys2Proof/Machine/Float.lean ====
section
/-! DEFINITION. The F32 numerics: IEEE 754 binary32 with round to nearest, ties to even (spec 00_scope R13).
Every finite binary32 value is a whole number of units of 2^-149 (the least subnormal), so values are exact
integers in that unit, and one function, `roundMag`, does all the rounding. -/

namespace Sys2Proof.F32

/-- The sign bit (30_encoding R78). -/
def isNeg (x : F32) : Bool := x.msb

/-- The pattern without its sign bit. -/
def mag (x : F32) : Nat := x.toNat % 2 ^ 31

/-- The magnitude pattern of infinity: exponent field 255, fraction 0. -/
def infMag : Nat := 255 * 2 ^ 23

def isNaN (x : F32) : Bool := decide (infMag < mag x)

def isInf (x : F32) : Bool := decide (mag x = infMag)

/-- Neither an infinity nor a NaN (00_scope R7 item (d)). -/
def isFinite (x : F32) : Bool := decide (mag x < infMag)

/-- The value of a magnitude pattern in units of 2^-149: `m / 2^23` is the exponent field (bits 30:23), `m % 2^23`
the fraction (bits 22:0); a subnormal has exponent field 0, a normal number a hidden bit. Infinity gets the number
one step above the greatest finite one, which puts it in its place in the order. -/
def magValue (m : Nat) : Nat :=
  if m / 2 ^ 23 = 0 then m % 2 ^ 23 else (2 ^ 23 + m % 2 ^ 23) * 2 ^ (m / 2 ^ 23 - 1)

/-- The magnitude of a number in units of 2^-149. -/
def magUnits (x : F32) : Nat := magValue (mag x)

/-- The signed value in units of 2^-149; both zeros give 0. -/
def units (x : F32) : Int := if isNeg x then -(magUnits x : Int) else (magUnits x : Int)

/-- Units of 2^-149 in the number 1. -/
def one : Nat := 2 ^ 149

/-- The number of bits of `n`, 0 for 0. -/
def bitLength (n : Nat) : Nat := if n = 0 then 0 else Nat.log2 n + 1

/-- `n / d` rounded to the nearest integer, ties to the even one. -/
def divEven (n d : Nat) : Nat :=
  if 2 * (n % d) < d then n / d
  else if d < 2 * (n % d) then n / d + 1
  else if (n / d) % 2 = 0 then n / d else n / d + 1

/-- The binary exponent (over 2^-149) of the last place of the result for the exact magnitude `n / d`: enough
places are dropped to keep 24 significant bits. -/
def lastPlace (n d : Nat) : Nat := bitLength (n / d) - 24

/-- The magnitude pattern nearest to `n / d` units of 2^-149, ties to even; past the greatest finite number,
infinity. With `e` the last place and `q` the rounded significand the pattern is `e * 2^23 + q` whether the
result is subnormal, normal, or rounds up to the next power of two. -/
def roundMag (n d : Nat) : Nat :=
  min (lastPlace n d * 2 ^ 23 + divEven n (d * 2 ^ lastPlace n d)) infMag

/-- A pattern from its sign and its magnitude pattern. -/
def pack (neg : Bool) (m : Nat) : F32 := BitVec.ofNat 32 (if neg then 2 ^ 31 + m else m)

/-- The number `n / d` in units of 2^-149, with the sign given, rounded once. -/
def rounded (neg : Bool) (n d : Nat) : F32 := pack neg (roundMag n d)

/-- A quiet NaN whose sign and payload are free (log 7). -/
def nan (op : Nat) (a b : F32) : F32 := 0x7FC00000#32 ||| Config.freeNaN op a b

def inf (neg : Bool) : F32 := pack neg infMag

/-- Minus `x`, which only flips the sign bit. -/
def neg (x : F32) : F32 := x ^^^ 0x80000000#32

/-- The sum of two finite numbers. An exact sum of zero is plus zero, but minus zero when both operands are
minus zero (IEEE 754, round to nearest; log 7). -/
def addFinite (a b : F32) : F32 :=
  if units a + units b = 0 then pack (isNeg a && isNeg b) 0
  else rounded (decide (units a + units b < 0)) (units a + units b).natAbs 1

/-- Addition; `op` numbers the primitive for a free NaN. -/
def addOp (op : Nat) (a b : F32) : F32 :=
  if isFinite a && isFinite b then addFinite a b
  else if isNaN a || isNaN b then nan op a b
  else if isInf a && isInf b then (if isNeg a == isNeg b then a else nan op a b)
  else if isInf a then a else b

/-- `num(n)` (R12, R13): the literal rounded once. -/
def num (q : Rat) : F32 := rounded (decide (q < 0)) (q.num.natAbs * one) q.den

/-- `fadd(a, b)`. -/
def fadd (a b : F32) : F32 := addOp 0 a b

/-- `fsub(a, b)`: a plus minus b. -/
def fsub (a b : F32) : F32 := addOp 1 a (neg b)

/-- `fmul(a, b)`. -/
def fmul (a b : F32) : F32 :=
  if isFinite a && isFinite b then rounded (isNeg a != isNeg b) (magUnits a * magUnits b) one
  else if isNaN a || isNaN b then nan 2 a b
  else if magUnits a = 0 ∨ magUnits b = 0 then nan 2 a b
  else inf (isNeg a != isNeg b)

/-- `fhalf(a)`: a divided by 2, rounded (it rounds only below the least normal number; log 20). -/
def fhalf (a : F32) : F32 :=
  if isFinite a then rounded (isNeg a) (magUnits a) 2
  else if isNaN a then nan 3 a a else a

/-- `fabs(a)`: "clears the sign bit" (R13). -/
def fabs (a : F32) : F32 := a &&& 0x7FFFFFFF#32

/-- `flt(a, b)`: the IEEE ordered comparison; false on a NaN, and the two zeros are equal. -/
def flt (a b : F32) : Bool := !isNaN a && !isNaN b && decide (units a < units b)

/-- `fgt(a, b)`. -/
def fgt (a b : F32) : Bool := !isNaN a && !isNaN b && decide (units b < units a)

/-- `ffloor(a)`: exact on finite numbers; a free value on the others (93 U11; log 8). -/
def ffloor (a : F32) : Int := if isFinite a then units a / (one : Int) else Config.freeFloor a

/-- The F32 instantiation of `NUM` (00_scope R13), the reference of the hardware. -/
def numerics : Numerics F32 where
  num := num
  fadd := fadd
  fsub := fsub
  fmul := fmul
  fhalf := fhalf
  fabs := fabs
  flt := flt
  fgt := fgt
  ffloor := ffloor
  isFinite := isFinite

end Sys2Proof.F32
end

