-- ==== Sys2Proof/Machine/Params.lean ====
section
/-! DEFINITION. The one memory's read, the well-formedness of a configuration (spec 00_scope R7, 41 R118) and
the documented configuration (R6). -/

namespace Sys2Proof.Machine

variable {α : Type}

/-- `CalRead(c)`: the only memory read of the block, total over the 256 codes (20_memory R50). -/
def calRead (p : Params α) (c : SensorCode) : α := p.cal.entries[c.toNat]'(by rw [p.cal.full]; exact c.isLt)

/-- R7 (a): the limits are integers with 0 <= DUTY_MIN <= DUTY_MAX <= 255. -/
def limitsOk (p : Params α) : Bool := decide (p.dutyMin ≤ p.dutyMax) && decide (p.dutyMax ≤ 255)

/-- R7 (b): `P` is greater than zero, the literal and the stored constant. -/
def periodOk (N : Numerics α) (p : Params α) : Bool :=
  decide (0 < p.periodLit) && N.flt (N.num 0) p.period

/-- R7 (c): the stored `P` is the literal's Num and `INV_P` is the Num of the exact reciprocal of the exact
`P` (log 11). -/
def reciprocalOk [DecidableEq α] (N : Numerics α) (p : Params α) : Bool :=
  decide (p.period = N.num p.periodLit) && decide (p.invP = N.num (1 / p.periodLit))

/-- R7 (d): every Num parameter and every table entry is a finite number. -/
def finiteOk (N : Numerics α) (p : Params α) : Bool :=
  [p.period, p.invP, p.kp, p.ki, p.kd, p.setPoint, p.threshold].all N.isFinite
    && p.cal.entries.all N.isFinite && p.setPointTable.toList.all N.isFinite

/-- No entry is strictly greater than the next one. -/
def nonDecreasing (N : Numerics α) : List α → Bool
  | [] => true
  | [_] => true
  | a :: b :: rest => !N.flt b a && nonDecreasing N (b :: rest)

/-- R7 (e): `CAL[c] <= CAL[c+1]` for c from 0 to 254 (equal neighbours are allowed, 90_conflicts C3). -/
def monotoneOk (N : Numerics α) (p : Params α) : Bool := nonDecreasing N p.cal.entries

/-- R7 (f): `SET_ERROR_THRESHOLD` is greater than or equal to zero. -/
def thresholdOk (N : Numerics α) (p : Params α) : Bool := !N.flt p.threshold (N.num 0)

/-- A configuration is well-formed (00_scope R7, items (a) to (f)). -/
def wellFormedParams [DecidableEq α] (N : Numerics α) (p : Params α) : Bool :=
  limitsOk p && periodOk N p && reciprocalOk N p && finiteOk N p && monotoneOk N p && thresholdOk N p

/-- E of 41 R118 in units of 2^-149: |SetPoint| plus the greatest |CAL[c]|. -/
def errorBound (p : Params F32) : Nat :=
  F32.magUnits p.setPoint + (p.cal.entries.map F32.magUnits).foldl max 0

/-- The bound of 41 R118, (|Kp| + 2 |Ki P| + 2 |Kd INV_P| + 2) E + DUTY_MAX < 2^126, in exact integers
(both sides times the cube of 2^149). -/
def lawRangeOk (p : Params F32) : Bool :=
  decide ((F32.magUnits p.kp * F32.one + 2 * (F32.magUnits p.ki * F32.magUnits p.period)
      + 2 * (F32.magUnits p.kd * F32.magUnits p.invP) + 2 * F32.one ^ 2) * errorBound p
      + p.dutyMax * F32.one ^ 3 < 2 ^ 126 * F32.one ^ 3)

/-- |Ki P| < 2^126 and 2 E |INV_P| < 2^126: the two intermediates `kidt` and `dIn` that the bound of R118 does
not cover when E or |Kd| is below 1 (log 10). -/
def factorRangeOk (p : Params F32) : Bool :=
  decide (F32.magUnits p.ki * F32.magUnits p.period < 2 ^ 126 * F32.one ^ 2)
    && decide (2 * errorBound p * F32.magUnits p.invP < 2 ^ 126 * F32.one ^ 2)

/-- The configurations the F32 machine accepts: well-formed, and no primitive of the control law can overflow
(00_scope R7, R13, 41 R118, 93 U1 and U12; log 9, log 10). -/
def acceptedParams (p : Params F32) : Bool :=
  wellFormedParams F32.numerics p && lawRangeOk p && factorRangeOk p

/-- A configuration of the F32 machine: parameters together with the proof that they are accepted. "the rules of
this spec give a meaning only to a well-formed configuration, and a model refuses any other" (00_scope R7): no
other one can be built (log 9). -/
structure Configuration where
  params : Params F32
  accepted : acceptedParams params = true
deriving DecidableEq, Repr

/-- The fixture table `CAL_TEST[c] = c/4` of 95_test_vectors section 2; not the hardware's table, which the
source does not give (91 N1; log 4). -/
def calTest (N : Numerics α) : CalTable α :=
  ⟨(List.range 256).map fun (c : Nat) => N.num ((c : Rat) / 4), by simp only [List.length_map, List.length_range]⟩

/-- The second fixture of 95 section 2, with equal neighbours: `CAL_FLAT[c] = floor(c/2)/2`. -/
def calFlat (N : Numerics α) : CalTable α :=
  ⟨(List.range 256).map fun (c : Nat) => N.num (((c / 2 : Nat) : Rat) / 2), by simp only [List.length_map, List.length_range]⟩

/-- The documented configuration (00_scope R6, column "documented value") over a given table. The four set
points are not in the source (91 N2); no rule reads them (log 4). -/
def documentedParams (N : Numerics α) (cal : CalTable α) : Params α where
  periodLit := 65536 / 15625
  period := N.num (65536 / 15625)
  invP := N.num (15625 / 65536)
  kp := N.num 10
  ki := N.num (1 / 2)
  kd := N.num 0
  setPoint := N.num (75 / 2)
  dutyMin := 6
  dutyMax := 200
  threshold := N.num 1
  cal := cal
  setPointTable := ⟨⟨[N.num 0, N.num 0, N.num 0, N.num 0]⟩, rfl⟩
  ciWidth := 2

end Sys2Proof.Machine
end

