-- ==== Sys2Proof/Machine/State.lean ====
section
/-! DEFINITION. The state of the machine (spec 10_state R20), what a step can stop with, and the state after
reset (R34). -/

namespace Sys2Proof.Machine

/-- ControlMode, "enum {Idle, Running}" (10_state R21, 42 R130); its bit is `Mode.bit` in Machine/Flags.lean. -/
inductive Mode where
  | idle
  | running
deriving DecidableEq, Repr

/-- The eight registers of 10_state R20 over a number type: `F32` for the hardware, `Rat` for EXACT. -/
structure Regs (α : Type) where
  /-- `mode` (R21). -/
  mode : Mode
  /-- `integ` (R22). -/
  integ : α
  /-- `prev_err` (R23). -/
  prevErr : α
  /-- `duty_next`, the handoff register (R24). -/
  dutyNext : Byte
  /-- `duty_active`, the duty-cycle latch (R25). -/
  dutyActive : Byte
  /-- `gen_enable`: true = output path enabled (R26). -/
  genEnable : Bool
  /-- `temp_reg`, the translator's output register (R27). -/
  tempReg : α
  /-- `at_setpoint` (R28). -/
  atSetpoint : Bool
deriving DecidableEq, Repr

/-- The state: the eight registers under F32, and three fields of the model's own. -/
structure State extends Regs F32 where
  /-- The configuration of this instance (00_scope R6), which no step changes (log 3). -/
  cfg : Configuration
  /-- The event words presented and not yet taken, oldest first, as wide as the instance's ports (30 R70; log 1). -/
  events : List (EventWord cfg.params.ciWidth)
  /-- How many free values of `temp_reg` have been drawn (log 5). -/
  freeCount : Nat
deriving DecidableEq, Repr

/-- `CI_WIDTH` of the instance (00_scope R6). -/
abbrev State.ciWidth (s : State) : Nat := s.cfg.params.ciWidth

/-- No step ends in a fault: "The block raises no synchronous exception" and every event word in every state
produces a next state (60_exceptions R180, 43 R161). The type has no constructor; safe (log 14). -/
inductive Fault
deriving DecidableEq, Repr

/-- Why a step can be refused. -/
inductive Refusal where
  /-- Raised by exec for an instruction that has no meaning yet; no arm does. Safe. -/
  | notModelled (mnemonic : String)
  /-- Raised by `instanceOf` (Machine/Ops.lean), which builds an instance from its parameters, when they are not ones
  the spec gives a meaning to (00_scope R7, 93 U1 and U12); a step never raises it. Safe (log 9, log 10). -/
  | illFormedConfig
deriving DecidableEq, Repr

/-- The documented configuration (00_scope R6) over the fixture table (log 4), with the check that it is
accepted. -/
def documentedConfiguration : Configuration where
  params := documentedParams F32.numerics (calTest F32.numerics)
  accepted := by decide +kernel

/-- The state after reset (10_state R34): Idle, everything 0, `temp_reg` a free value (log 5), the documented
configuration over the fixture table (log 4), and no event presented yet (log 1). -/
def State.reset : State where
  mode := .idle
  integ := F32.num 0
  prevErr := F32.num 0
  dutyNext := 0
  dutyActive := 0
  genEnable := false
  tempReg := Config.freeTemp 0
  atSetpoint := false
  cfg := documentedConfiguration
  events := []
  freeCount := 1

end Sys2Proof.Machine
end

