-- ==== Sys2Proof/Machine/Operands.lean ====
section
/-! DEFINITION. What the operands of a sampling event give (spec 40_temperature_translator, 43 R155, 42 R132). -/

namespace Sys2Proof.Machine

variable {α : Type}

/-- `translate(c)` = `CAL[c]`, unchanged: no scaling, no interpolation, no error case (40 R90, R91). -/
def translate (p : Params α) (sc : SensorCode) : α := calRead p sc

/-- `e = fsub(SetPoint, translate(sc))`, the error of a period (43 R155). -/
def errorOf (N : Numerics α) (p : Params α) (sc : SensorCode) : α := N.fsub p.setPoint (translate p sc)

/-- The transition function of the power state machine: the new mode is a function of the control input alone
(42 R132); 1, 2 and 3, and any wider nonzero level, are alike (30 R72, 93 U3). -/
def nextMode (ci : ControlInput) : Mode := if ci = 0 then .idle else .running

end Sys2Proof.Machine
end

