-- ==== Sys2Proof/Machine/Flags.lean ====
section
/-! DEFINITION. The two indicator bits ("flags", spec 43 section 1) and the output ports (30_encoding R70). -/

namespace Sys2Proof.Machine

variable {α : Type}

/-- ControlMode as its bit: Idle = 0, Running = 1 (30 R81). -/
def Mode.bit : Mode → BitVec 1
  | .idle => 0#1
  | .running => 1#1

/-- The `running` indicator: equal to `mode` at all times, no register of its own (10_state R29, 42 R139). -/
def runningFlag (r : Regs α) : Bool := r.mode.bit == 1#1

/-- The new `at_setpoint`: the error's magnitude is strictly below the threshold (41 R109). -/
def setpointFlag (N : Numerics α) (p : Params α) (e : α) : Bool := N.flt (N.fabs e) p.threshold

/-- The output ports (30 R70, R78); `heaterGate`, `running`, `atSetpoint` are active high. -/
structure Outputs (α : Type) where
  dutySet : Byte
  dutyOut : Byte
  heaterGate : Bool
  running : Bool
  atSetpoint : Bool
  tempOut : α
deriving DecidableEq, Repr

/-- The outputs are plain copies of registers (30 R70). -/
def outputs (r : Regs α) : Outputs α where
  dutySet := r.dutyNext
  dutyOut := r.dutyActive
  heaterGate := r.genEnable
  running := runningFlag r
  atSetpoint := r.atSetpoint
  tempOut := r.tempReg

/-- The generator's contract on the outputs (43 R158): in how many 256ths of the period that follows a reload
the heating element is on. -/
def heaterOn256 (o : Outputs α) : Nat := if o.heaterGate then o.dutyOut.toNat else 0

end Sys2Proof.Machine
end

