-- ==== Sys2Proof/Machine/Pid.lean ====
section
/-! DEFINITION. The PID controller `pid_step` (spec 41_pid_controller R100 to R107), over any numerics, in the
order of application R107 fixes. -/

namespace Sys2Proof.Machine

variable {α : Type}

/-- Step 1, trapezoidal integral update (R101). -/
def pidIntegral (N : Numerics α) (p : Params α) (e i pe : α) : α :=
  N.fadd i (N.fhalf (N.fmul (N.fmul p.ki p.period) (N.fadd e pe)))

/-- Step 2, anti-windup clamp into the output band, both bounds inclusive (R102). -/
def pidClamp (N : Numerics α) (p : Params α) (i1 : α) : α :=
  if N.fgt i1 (N.num p.dutyMax) then N.num p.dutyMax
  else if N.flt i1 (N.num p.dutyMin) then N.num p.dutyMin
  else i1

/-- Step 3, derivative on the error, by the stored reciprocal of the period (R103, 90_conflicts C1). -/
def pidDerivative (N : Numerics α) (p : Params α) (e pe : α) : α := N.fmul (N.fsub e pe) p.invP

/-- Step 4, raw output, with the clamped integral (R104). -/
def pidOutput (N : Numerics α) (p : Params α) (e i2 dIn : α) : α :=
  N.fadd (N.fadd (N.fmul p.kp e) i2) (N.fmul p.kd dIn)

/-- "floor(output) as the bounded integer type": the floor always lies in DUTY_MIN to DUTY_MAX where step 5 takes
it (R112). The other arm is reached only by a free `ffloor` (93 U11) and keeps R111's limit (log 8). -/
def dutyOfFloor (p : Params α) (k : Int) : Byte :=
  if (p.dutyMin : Int) ≤ k ∧ k ≤ (p.dutyMax : Int) then BitVec.ofInt 8 k else 0

/-- Step 5, output shaping with the asymmetric deadband (R105). -/
def pidDuty (N : Numerics α) (p : Params α) (out : α) : Byte :=
  if N.fgt out (N.num p.dutyMax) then BitVec.ofNat 8 p.dutyMax
  else if N.flt out (N.num p.dutyMin) then 0
  else dutyOfFloor p (N.ffloor out)

/-- What `pid_step` returns: the duty and the new PIDState (R100). -/
structure PidResult (α : Type) where
  duty : Byte
  integ : α
  prevErr : α
deriving DecidableEq, Repr

/-- `pid_step(e, I, pe)` in full (R107); step 6 is `pe' = e` (R106). -/
def pidStep (N : Numerics α) (p : Params α) (e i pe : α) : PidResult α :=
  let i2 := pidClamp N p (pidIntegral N p e i pe)
  let out := pidOutput N p e i2 (pidDerivative N p e pe)
  { duty := pidDuty N p out, integ := i2, prevErr := e }

end Sys2Proof.Machine
end

