-- ==== Sys2Proof/Machine/Ops.lean ====
section
/-! DEFINITION. The named operations over the registers that the meanings share (spec 42, 43), and the input of a
step. The block takes no exception and returns from none (60_exceptions R180, R185, R187), so there is no such
operation here. -/

namespace Sys2Proof.Machine

variable {α : Type}

/-- The registers `RST` leaves, whatever they held; `temp` is the unspecified value of `temp_reg` (43 R150). -/
def rstRegs (N : Numerics α) (temp : α) : Regs α where
  mode := .idle
  integ := N.num 0
  prevErr := N.num 0
  dutyNext := 0
  dutyActive := 0
  genEnable := false
  tempReg := temp
  atSetpoint := false

/-- `duty_active <- duty_next`; the slot is read, not emptied, in every mode (43 R152, decision D16). -/
def reloadRegs (r : Regs α) : Regs α := { r with dutyActive := r.dutyNext }

/-- The Idle arm of a sampling event: disable(), PIDState and DutyValue cleared, written unconditionally
(43 R153, 42 R134, R136, R138). -/
def idleRegs (N : Numerics α) (r : Regs α) : Regs α :=
  { r with
    mode := .idle
    genEnable := false
    integ := N.num 0
    prevErr := N.num 0
    dutyNext := 0
    atSetpoint := false }

/-- The Running arm of a sampling event: enable(), translate, error, pid_step, at-setpoint; every register read
is the value from before the operation (43 R153, R157). -/
def runningRegs (N : Numerics α) (p : Params α) (sc : SensorCode) (r : Regs α) : Regs α :=
  let e := errorOf N p sc
  let res := pidStep N p e r.integ r.prevErr
  { r with
    mode := .running
    genEnable := true
    tempReg := translate p sc
    integ := res.integ
    prevErr := res.prevErr
    dutyNext := res.duty
    atSetpoint := setpointFlag N p e }

/-- A sampling event (43 R153): the state machine's new mode chooses the arm (R157, 42 R132). -/
def sampleRegs (N : Numerics α) (p : Params α) (ci : ControlInput) (sc : SensorCode) (r : Regs α) : Regs α :=
  match nextMode ci with
  | .idle => idleRegs N r
  | .running => runningRegs N p sc r

/-- A period boundary with both events: the writes of the sampling event and, together with them,
`duty_active <- duty_next` of the value from before (43 R154). -/
def tickRegs (N : Numerics α) (p : Params α) (ci : ControlInput) (sc : SensorCode) (r : Regs α) : Regs α :=
  { sampleRegs N p ci sc r with dutyActive := r.dutyNext }

/-- `s` with its eight registers replaced. -/
def State.withRegs (s : State) (r : Regs F32) : State := { s with toRegs := r }

/-- `s` after one free value has been drawn (log 5). -/
def State.drawn (s : State) : State := { s with freeCount := s.freeCount + 1 }

/-- The event word the inputs hold at this step: the oldest one presented, or the word of `NOP` while the host
presents none (30 R71, 93 U6; log 1, log 2). -/
def State.currentWord (s : State) : EventWord s.ciWidth := s.events.headD 0

/-- `s` with that word taken. -/
def State.taken (s : State) : State := { s with events := s.events.tail }

/-- `s` with one more event word presented by the host, after those that wait. -/
def State.present (s : State) (w : EventWord s.ciWidth) : State := { s with events := s.events ++ [w] }

/-- `s` with what the input wires carry presented; undefined levels are refused by name (30 R77; log 19). -/
def State.presentPins (s : State) (p : Pins s.ciWidth) : Except DecodeRefusal State := p.read.map s.present

/-- `s` with an event word presented ahead of those that wait: the next step takes it. -/
def State.presentFirst (s : State) (w : EventWord s.ciWidth) : State := { s with events := w :: s.events }

/-- The state after reset of the instance with the parameters `p`; an ill-formed configuration, or one whose range
the spec cannot vouch for, is refused (00_scope R7, R13, 93 U1, U12; log 9, log 10). -/
def instanceOf (p : Params F32) : Except Refusal State :=
  if h : acceptedParams p = true then .ok { State.reset with cfg := ⟨p, h⟩, events := [] } else .error .illFormedConfig

end Sys2Proof.Machine
end

