-- ==== Sys2Proof/Machine/Scheduler.lean ====
section
/-! DEFINITION. The meanings of the five operations (spec 43_scheduler_operations R150 to R154). -/

namespace Sys2Proof.Machine

/-- `RST` (R150): the initial state; `temp_reg` becomes unspecified, a fresh free value (log 5). -/
def execRst (s : State) : Host.Outcome State Fault Refusal :=
  .next (s.drawn.withRegs (rstRegs F32.numerics (Config.freeTemp s.freeCount)))

/-- `NOP` (R151): every register keeps its value. -/
def execNop (s : State) : Host.Outcome State Fault Refusal := .next s

/-- `RELOAD` (R152). -/
def execReload (s : State) : Host.Outcome State Fault Refusal :=
  .next (s.withRegs (reloadRegs s.toRegs))

/-- `SAMPLE ci, sc` (R153). -/
def execSample (ci : ControlInput) (sc : SensorCode) (s : State) : Host.Outcome State Fault Refusal :=
  .next (s.withRegs (sampleRegs F32.numerics s.cfg.params ci sc s.toRegs))

/-- `TICK ci, sc` (R154). -/
def execTick (ci : ControlInput) (sc : SensorCode) (s : State) : Host.Outcome State Fault Refusal :=
  .next (s.withRegs (tickRegs F32.numerics s.cfg.params ci sc s.toRegs))

end Sys2Proof.Machine
end

