-- ==== Sys2Proof/Machine/Dispatch.lean ====
section
/-! DEFINITION. One arm per operation (spec 30_encoding R73). -/

namespace Sys2Proof.Machine

def exec (i : Instr) (s : State) : Host.Outcome State Fault Refusal :=
  match i with
  | .rst => Sys2Proof.Machine.execRst s
  | .nop => Sys2Proof.Machine.execNop s
  | .reload => Sys2Proof.Machine.execReload s
  | .sample ci sc => Sys2Proof.Machine.execSample ci sc s
  | .tick ci sc => Sys2Proof.Machine.execTick ci sc s

end Sys2Proof.Machine
end

