-- ==== Sys2Proof/Machine/Step.lean ====
section
/-! DEFINITION. One step: one event word taken and its operation performed (spec 00_scope R11). -/

namespace Sys2Proof.Machine

/-- The step: the event word on the inputs is taken, decoded (30 R73) and performed, atomically (43 R161). -/
def step (s : State) : Host.Outcome State Fault Refusal := exec (decode s.currentWord) s.taken

/-- `s` with the event word of the table's bits `w` on the inputs, so that the next step takes it (log 1). The number is
read in the layout of the instance, which is the table's at the default `CI_WIDTH` (log 12). -/
def State.withFetchWord (s : State) (nbits w : Nat) : State :=
  s.presentFirst (BitVec.ofNat (3 + s.ciWidth + 8) (w % 2 ^ nbits))

end Sys2Proof.Machine
end

