-- ==== Sys2Proof/Machine/Trace.lean ====
section
/-! DEFINITION. The written form of event traces and its pseudo-operations (spec 30_encoding R79, R80). -/

namespace Sys2Proof.Machine

/-- One line of a trace: an operation, or a pseudo-operation of R80. -/
inductive TraceLine where
  | op (i : Instr)
  | off
  | run (sc : SensorCode)
  | wait (n : Nat)
  | period (ci : ControlInput) (sc : SensorCode)
deriving DecidableEq, Repr

/-- The operations a line stands for (R80). -/
def TraceLine.expand : TraceLine → List Instr
  | .op i => [i]
  | .off => [.tick 0 0]
  | .run sc => [.tick 1 sc]
  | .wait n => List.replicate n .nop
  | .period ci sc => [.reload, .sample ci sc]

/-- The event words of a trace in an instance's layout (R79), each in the spelling of `encode` (log 21). -/
def assemble (ciWidth : Nat) (t : List TraceLine) : List (EventWord ciWidth) :=
  (t.flatMap TraceLine.expand).map (encode ciWidth)

/-- Why a text line is no line of a trace. -/
inductive TraceRefusal where
  /-- The first word is no mnemonic of R79 or R80 (mnemonics are upper case), or operands are too many or too few. -/
  | notAnOperation
  /-- An operand is neither a decimal nor a `0x` hexadecimal integer. -/
  | notANumber
  /-- An operand is outside its field's range. -/
  | operandOutOfRange
deriving DecidableEq, Repr

/-- A digit's value below the base. -/
def digitValue (base : Nat) (c : Char) : Option Nat :=
  let n := c.toNat
  let v := if 48 ≤ n ∧ n ≤ 57 then n - 48 else if 65 ≤ n ∧ n ≤ 70 then n - 55
    else if 97 ≤ n ∧ n ≤ 102 then n - 87 else base
  if v < base then some v else none

/-- The value of a run of digits after the digits already read. -/
def digitsValue (base : Nat) : Nat → List Char → Option Nat
  | acc, [] => some acc
  | acc, c :: rest => (digitValue base c).bind fun v => digitsValue base (acc * base + v) rest

/-- A decimal or `0x` hexadecimal integer (R79). -/
def numberValue : List Char → Except TraceRefusal Nat
  | [] => .error .notANumber
  | '0' :: 'x' :: c :: rest => (digitsValue 16 0 (c :: rest)).elim (.error .notANumber) .ok
  | cs => (digitsValue 10 0 cs).elim (.error .notANumber) .ok

/-- A text without the blanks at its two ends. -/
def trimBlanks (cs : List Char) : List Char :=
  ((cs.dropWhile (· == ' ')).reverse.dropWhile (· == ' ')).reverse

/-- The texts between commas. -/
def splitCommas : List Char → List (List Char)
  | [] => [[]]
  | ',' :: rest => [] :: splitCommas rest
  | c :: rest =>
    match splitCommas rest with
    | [] => [[c]]
    | first :: others => (c :: first) :: others

def ciOperand (ciWidth : Nat) (cs : List Char) : Except TraceRefusal ControlInput :=
  (numberValue (trimBlanks cs)).bind fun n =>
    if n < 2 ^ ciWidth then .ok n else .error .operandOutOfRange

def scOperand (cs : List Char) : Except TraceRefusal SensorCode :=
  (numberValue (trimBlanks cs)).bind fun n =>
    if n < 256 then .ok (BitVec.ofNat 8 n) else .error .operandOutOfRange

/-- A mnemonic with its operands (R79, R80). -/
def lineOf (ciWidth : Nat) (mnemonic : List Char) (operands : List (List Char)) : Except TraceRefusal TraceLine :=
  match mnemonic, operands with
  | ['R', 'S', 'T'], [] => .ok (.op .rst)
  | ['N', 'O', 'P'], [] => .ok (.op .nop)
  | ['R', 'E', 'L', 'O', 'A', 'D'], [] => .ok (.op .reload)
  | ['S', 'A', 'M', 'P', 'L', 'E'], [c, s] =>
    (ciOperand ciWidth c).bind fun ci => (scOperand s).map fun sc => .op (.sample ci sc)
  | ['T', 'I', 'C', 'K'], [c, s] =>
    (ciOperand ciWidth c).bind fun ci => (scOperand s).map fun sc => .op (.tick ci sc)
  | ['O', 'F', 'F'], [] => .ok .off
  | ['R', 'U', 'N'], [s] => (scOperand s).map .run
  | ['W', 'A', 'I', 'T'], [n] => (numberValue (trimBlanks n)).map .wait
  | ['P', 'E', 'R', 'I', 'O', 'D'], [c, s] =>
    (ciOperand ciWidth c).bind fun ci => (scOperand s).map fun sc => .period ci sc
  | _, _ => .error .notAnOperation

/-- One text line: "a `#` starts a comment to the end of the line" (R79); a line with nothing else is none. -/
def parseLine (ciWidth : Nat) (cs : List Char) : Except TraceRefusal (Option TraceLine) :=
  let body := trimBlanks (cs.takeWhile (· != '#'))
  let rest := trimBlanks (body.dropWhile (· != ' '))
  if body.isEmpty then .ok none
  else (lineOf ciWidth (body.takeWhile (· != ' ')) (if rest.isEmpty then [] else splitCommas rest)).map some

end Sys2Proof.Machine
end

