-- ==== Sys2Proof/Machine/Exact.lean ====
section
/-! DEFINITION. The EXACT numerics (spec 00_scope R14) and the block's operations over them: the same register
operations as the hardware's, at the rational numbers. -/

namespace Sys2Proof.Exact

open Sys2Proof.Machine

/-- The EXACT instantiation of `NUM`: every primitive returns the exact result; every value is finite (R14). -/
def numerics : Numerics Rat where
  num := fun q => q
  fadd := fun a b => a + b
  fsub := fun a b => a - b
  fmul := fun a b => a * b
  fhalf := fun a => a / 2
  fabs := fun a => if a < 0 then -a else a
  flt := fun a b => decide (a < b)
  fgt := fun a b => decide (b < a)
  ffloor := fun a => a.floor
  isFinite := fun _ => true

/-- One operation of the block over any numerics; `temp` is the unspecified value `RST` leaves in `temp_reg`. -/
def execRegs {α : Type} (N : Numerics α) (p : Params α) (temp : α) (i : Instr) (r : Regs α) : Regs α :=
  match i with
  | .rst => rstRegs N temp
  | .nop => r
  | .reload => reloadRegs r
  | .sample ci sc => sampleRegs N p ci sc r
  | .tick ci sc => tickRegs N p ci sc r

/-- One operation under EXACT, refused when the configuration is not well-formed (R7); `n` numbers the draw of a
free `temp_reg` (log 5). -/
def exec (p : Params Rat) (n : Nat) (i : Instr) (r : Regs Rat) : Except Refusal (Regs Rat) :=
  if wellFormedParams numerics p then .ok (execRegs numerics p (Config.freeTempExact n) i r)
  else .error .illFormedConfig

end Sys2Proof.Exact
end

