-- ==== Sys2Proof/Safety.lean ====
section
/-! DEFINITION. What a safe state is (spec 10_state R35 to R37, 43 R159, 95 section 9). -/

namespace Sys2Proof.Safety

open Sys2Proof.Machine

variable {α : Type}

/-- "either exactly 0 (element fully off) or within [DUTY_MIN, DUTY_MAX]" (R36, 41 R111). -/
def LegalDuty (p : Params α) (d : Byte) : Prop := d = 0 ∨ (p.dutyMin ≤ d.toNat ∧ d.toNat ≤ p.dutyMax)

/-- `gen_enable` = `mode` (R35). -/
def GateIsMode (r : Regs α) : Prop := r.genEnable = runningFlag r

/-- In Idle the PID history, the pending duty and the indicator are cleared (R35). -/
def IdleCleared (N : Numerics α) (r : Regs α) : Prop :=
  r.mode = .idle →
    r.integ = N.num 0 ∧ r.prevErr = N.num 0 ∧ r.dutyNext = 0 ∧ r.atSetpoint = false

/-- R35 and R36 together. -/
def SafeRegs (N : Numerics α) (p : Params α) (r : Regs α) : Prop :=
  GateIsMode r ∧ IdleCleared N r ∧ LegalDuty p r.dutyNext ∧ LegalDuty p r.dutyActive

/-- DUTY_MIN <= x <= DUTY_MAX, of a finite number. -/
def InBand (N : Numerics α) (p : Params α) (x : α) : Prop :=
  N.isFinite x = true ∧ N.flt x (N.num p.dutyMin) = false ∧ N.fgt x (N.num p.dutyMax) = false

/-- `prev_err` is 0 or the error of some sensor code (10_state R23). -/
def ErrorOfSomeCode (N : Numerics α) (p : Params α) (x : α) : Prop :=
  x = N.num 0 ∨ ∃ sc : SensorCode, x = errorOf N p sc

/-- R37 with what it rests on: `integ` is 0 or in the band, in the band while Running (95 section 9 (d)), and
`prev_err` is an error the block can compute. -/
def IntegBounded (N : Numerics α) (p : Params α) (r : Regs α) : Prop :=
  (r.integ = N.num 0 ∨ InBand N p r.integ) ∧ (r.mode = .running → InBand N p r.integ) ∧
    ErrorOfSomeCode N p r.prevErr

/-- The heating element is off for the whole of the period (43 R158, R159). -/
def HeaterOff (r : Regs α) : Prop := heaterOn256 (outputs r) = 0

/-- The state a step leads to, where it leads to one. -/
def stepsTo (s t : State) : Prop := step s = .next t

end Sys2Proof.Safety
end

