-- ==== Sys2Proof/Certificates/Slice0/Obligations.lean ====
section
/-! DEFINITION. The statements for the provers, from the numbered rules of spec/. -/

open Sys2Proof Sys2Proof.Machine Sys2Proof.Safety

/-! ## The event word and its decoding -/

/-- Some of the decode vectors of 95_test_vectors section 3 (rules R71, R73). -/
def Obligations.SpecEventWordsDecodeAsListed : Prop :=
  ∀ line ∈ ([(0x0000#13, .nop), (0x03FF#13, .nop), (0x0400#13, .reload), (0x07A5#13, .reload),
      (0x0978#13, .sample 1 120#8), (0x0BFF#13, .sample 3 255#8), (0x0D78#13, .tick 1 120#8),
      (0x0E82#13, .tick 2 130#8), (0x1000#13, .rst), (0x1D78#13, .rst)] : List (EventWord 2 × Instr)),
    decode line.1 = line.2

/-- Every operation with operands in range is read back from its event word (R71, R72, R73), for every width of the
control input. Two cases are the model's choice: the layout at another width than 2 (log 12), and `SAMPLE` and `TICK`
with `ci` = 0 and `sc` not 0, whose `sc` R75 ignores and `encode` keeps (log 21). -/
def Obligations.DecodeOfEncodeIsTheOperation : Prop :=
  ∀ (ciWidth : Nat) (i : Instr), i.wellFormed ciWidth = true → decode (encode ciWidth i) = i

/-- R73: every event word selects exactly one row of the table, the row of the operation it decodes to. -/
def Obligations.EveryWordSelectsExactlyOneRow : Prop :=
  ∀ w : EventWord 2, ∃ row ∈ opcodeTable,
    row.selects w = true ∧ row.mnemonic = (decode w).mnemonic ∧
      ∀ other ∈ opcodeTable, other.selects w = true → other = row

/-- R72: both operand fields are taken as they stand, `sc` is the table index unchanged, and the nonzero levels of
`ci` are interchangeable. -/
def Obligations.OperandsAreTheFieldsAsTheyStand : Prop :=
  (∀ w : EventWord 2, (ciField w = w.toNat / 256 % 4 ∧ (scField w).toNat = w.toNat % 256) ∧
      (w.toNat / 1024 = 2 → decode w = .sample (ciField w) (scField w)) ∧
      (w.toNat / 1024 = 3 → decode w = .tick (ciField w) (scField w))) ∧
    (∀ (p : Params F32) (sc : SensorCode), p.cal.entries[sc.toNat]? = some (translate p sc)) ∧
    ∀ (ci ci' : ControlInput) (sc : SensorCode) (s : State), ci ≠ 0 → ci' ≠ 0 →
      exec (.sample ci sc) s = exec (.sample ci' sc) s ∧ exec (.tick ci sc) s = exec (.tick ci' sc) s

/-- R75: ignored fields have no effect, and the canonical spelling puts 0 in them. (With `ci` = 0 and `sc` not 0
`encode` keeps `sc`, log 21; nothing here rests on it.) -/
def Obligations.IgnoredFieldsHaveNoEffect : Prop :=
  (∀ w w' : EventWord 2,
      (4096 ≤ w.toNat → 4096 ≤ w'.toNat → decode w = decode w') ∧
      (w.toNat / 1024 = 0 → w'.toNat / 1024 = 0 → decode w = decode w') ∧
      (w.toNat / 1024 = 1 → w'.toNat / 1024 = 1 → decode w = decode w')) ∧
    (∀ (sc sc' : SensorCode) (s : State),
      exec (.sample 0 sc) s = exec (.sample 0 sc') s ∧ exec (.tick 0 sc) s = exec (.tick 0 sc') s) ∧
    encode 2 .rst = 0x1000#13 ∧ encode 2 .nop = 0x0000#13 ∧ encode 2 .reload = 0x0400#13 ∧
    encode 2 (.sample 0 0) = 0x0800#13 ∧ encode 2 (.tick 0 0) = 0x0C00#13

/-- A number is an event word exactly up to 0x1FFF (R71); the three bits above are the model's reading of the
table's whole bytes (log 18). -/
def Obligations.OnlyThirteenBitNumbersAreEventWords : Prop :=
  ∀ w : Nat, w < 2 ^ 16 →
    decodeTableWord 16 w = if w < 2 ^ 13 then some (decode (ciWidth := 2) (BitVec.ofNat 13 w)) else none

/-- R77: the wires give an event word exactly when every level is definite, and then bit for bit the word of R71
(at another width than 2 the model's layout, log 12); otherwise they are refused as an undefined input (log 19). -/
def Obligations.OnlyDefiniteLevelsAreTaken : Prop :=
  ∀ (ciWidth : Nat) (p : Pins ciWidth),
    ((∃ w, p.read = .ok w) ↔
      Level.undefined ∉ [p.rst, p.sample, p.reload] ++ p.ci.toList ++ p.sc.toList) ∧
    ((∃ port, p.read = .error (.undefinedInput port)) ↔
      Level.undefined ∈ [p.rst, p.sample, p.reload] ++ p.ci.toList ++ p.sc.toList) ∧
    ∀ w, p.read = .ok w →
      [p.rst, p.sample, p.reload] ++ p.ci.toList ++ p.sc.toList =
        (List.range (3 + ciWidth + 8)).map fun k =>
          if w.getLsbD (3 + ciWidth + 8 - 1 - k) then Level.high else Level.low

/-! ## The step -/

/-- A step takes the oldest event word of the queue (the model's own, log 1) and performs the operation it decodes to;
with none presented it performs `NOP` (the model's choice, log 2); a number placed by withFetchWord is the word taken,
in the instance's layout (log 12) and without the bits above it (the model's choice, log 18). -/
def Obligations.StepRunsTheDecodedOperation : Prop :=
  (∀ (s : State) (w : EventWord s.ciWidth) (rest : List (EventWord s.ciWidth)), s.events = w :: rest →
      step s = exec (decode w) { s with events := rest }) ∧
    (∀ s : State, s.events = [] → step s = exec .nop s) ∧
    ∀ (s : State) (nbits w : Nat), w < 2 ^ nbits →
      step (s.withFetchWord nbits w) =
        exec (decode (ciWidth := s.ciWidth) (BitVec.ofNat (3 + s.ciWidth + 8) w)) s

/-- R161: in every state every event word is accepted and produces a next state. -/
def Obligations.EveryEventWordHasANextState : Prop :=
  ∀ (s : State) (w : EventWord s.ciWidth), ∃ t, step (s.presentFirst w) = .next t ∧ exec (decode w) s = .next t

/-! ## The five operations -/

/-- R150: the state `RST` leaves, with some value in the unspecified `temp_reg` (and in the model's own count of free
values, log 5) of which nothing is said, and that `rst` wins over both strobes. -/
def Obligations.RstEstablishesTheInitialState : Prop :=
  (∀ s : State, ∃ (unspecified : F32) (drawn : Nat), exec .rst s = .next
      { s with
        mode := .idle, genEnable := false, integ := F32.num 0, prevErr := F32.num 0, dutyNext := 0,
        dutyActive := 0, atSetpoint := false, tempReg := unspecified, freeCount := drawn }) ∧
    ∀ w : EventWord 2, w.getLsbD 12 = true → decode w = .rst

/-- R151: `NOP` changes nothing, whatever its operand fields, and any number of them leaves the same state as
none. -/
def Obligations.NopsKeepTheState : Prop :=
  (∀ s : State, exec .nop s = .next s) ∧
    (∀ w : EventWord 2, w.toNat / 1024 = 0 → decode w = .nop) ∧
    ∀ (s : State) (ws rest : List (EventWord s.ciWidth)), (∀ w ∈ ws, decode w = .nop) →
      core.run ws.length { s with events := ws ++ rest } = .next { s with events := rest }

/-- R152: `RELOAD` copies the handoff register to the latch and changes nothing else, in every mode; a second one
changes nothing more. -/
def Obligations.ReloadCopiesTheHandoffRegister : Prop :=
  (∀ s : State, exec .reload s = .next { s with dutyActive := s.dutyNext }) ∧
    (∀ w : EventWord 2, w.toNat / 1024 = 1 → decode w = .reload) ∧
    ∀ s t u : State, exec .reload s = .next t → exec .reload t = .next u → u = t

/-- The Idle arm of R153 and of R154, with its frame: what a zero control input leaves. -/
def Obligations.ZeroKnobEntersIdle : Prop :=
  ∀ (s : State) (sc : SensorCode),
    exec (.sample 0 sc) s = .next
        { s with
          mode := .idle, genEnable := false, integ := F32.num 0, prevErr := F32.num 0, dutyNext := 0,
          atSetpoint := false } ∧
      exec (.tick 0 sc) s = .next
        { s with
          mode := .idle, genEnable := false, integ := F32.num 0, prevErr := F32.num 0, dutyNext := 0,
          atSetpoint := false, dutyActive := s.dutyNext }

/-- R153, both arms, with its frame: `duty_active`, the configuration and the input are untouched. -/
def Obligations.SamplePerformsTheSamplingEvent : Prop :=
  ∀ (s : State) (ci : ControlInput) (sc : SensorCode),
    let t := calRead s.cfg.params sc
    let e := F32.fsub s.cfg.params.setPoint t
    let res := pidStep F32.numerics s.cfg.params e s.integ s.prevErr
    exec (.sample ci sc) s = .next
      (if ci = 0 then
        { s with
          mode := .idle, genEnable := false, integ := F32.num 0, prevErr := F32.num 0, dutyNext := 0,
          atSetpoint := false }
      else
        { s with
          mode := .running, genEnable := true, tempReg := t, integ := res.integ, prevErr := e,
          dutyNext := res.duty, atSetpoint := F32.flt (F32.fabs e) s.cfg.params.threshold })

/-- R154: `TICK` copies the old handoff register and makes every write of `SAMPLE`; equivalently it is `RELOAD` and
then `SAMPLE`. -/
def Obligations.TickIsReloadThenSample : Prop :=
  ∀ (s : State) (ci : ControlInput) (sc : SensorCode), ∃ r u t : State,
    exec .reload s = .next r ∧ exec (.sample ci sc) s = .next u ∧ exec (.tick ci sc) s = .next t ∧
      t = { u with dutyActive := s.dutyNext } ∧ exec (.sample ci sc) r = .next t

/-- A reload acted on after the sampling event of the same boundary applies the fresh duty at once (R205). -/
def Obligations.ReloadAfterSampleHasNoLatency : Prop :=
  ∀ (s : State) (ci : ControlInput) (sc : SensorCode), ∃ u t : State,
    exec (.sample ci sc) s = .next u ∧ exec .reload u = .next t ∧ t.dutyActive = u.dutyNext ∧
      t.dutyNext = u.dutyNext

/-! ## The control law -/

/-- R101 to R107: `pid_step` is the six steps, each primitive applied in the order of R107. A NaN output, to which
the spec gives no duty, is reached under no accepted configuration (log 8). -/
def Obligations.PidStepIsTheSixSteps : Prop :=
  ∀ (c : Configuration) (e i pe : F32),
    let p := c.params
    let res := pidStep F32.numerics p e i pe
    let kidt := F32.fmul p.ki p.period
    let esum := F32.fadd e pe
    let area2 := F32.fmul kidt esum
    let inc := F32.fhalf area2
    let i1 := F32.fadd i inc
    let i2 := if F32.fgt i1 (F32.num p.dutyMax) then F32.num p.dutyMax
      else if F32.flt i1 (F32.num p.dutyMin) then F32.num p.dutyMin else i1
    let ediff := F32.fsub e pe
    let dIn := F32.fmul ediff p.invP
    let pterm := F32.fmul p.kp e
    let s1 := F32.fadd pterm i2
    let dterm := F32.fmul p.kd dIn
    let out := F32.fadd s1 dterm
    res.integ = i2 ∧ res.prevErr = e ∧
      (F32.isNaN out = false →
        (res.duty.toNat : Int) = if F32.fgt out (F32.num p.dutyMax) then (p.dutyMax : Int)
          else if F32.flt out (F32.num p.dutyMin) then 0 else F32.ffloor out)

/-- R110: after any step the accumulator lies within the output band, wherever the comparisons are meaningful. -/
def Obligations.IntegralLiesInTheOutputBand : Prop :=
  ∀ (c : Configuration) (e i pe : F32),
    F32.isNaN (pidIntegral F32.numerics c.params e i pe) = false →
      InBand F32.numerics c.params (pidStep F32.numerics c.params e i pe).integ

/-- R111: for any inputs the returned duty is 0 or within the band. -/
def Obligations.DutyIsOffOrInTheBand : Prop :=
  ∀ (c : Configuration) (e i pe : F32), LegalDuty c.params (pidStep F32.numerics c.params e i pe).duty

/-- R112: in the third branch of step 5 the argument is never negative, its floor (downward, never to nearest) is
an integer from DUTY_MIN to DUTY_MAX, and it fits 8 bits without wrapping; the limits' Nums are exact. -/
def Obligations.FloorBranchIsExact : Prop :=
  ∀ (c : Configuration),
    F32.units (F32.num c.params.dutyMin) = c.params.dutyMin * F32.one ∧
      F32.units (F32.num c.params.dutyMax) = c.params.dutyMax * F32.one ∧
      ∀ out : F32, F32.isNaN out = false → F32.fgt out (F32.num c.params.dutyMax) = false →
        F32.flt out (F32.num c.params.dutyMin) = false →
        ∃ k : Nat, F32.ffloor out = k ∧ c.params.dutyMin ≤ k ∧ k ≤ c.params.dutyMax ∧
          (k * F32.one : Int) ≤ F32.units out ∧ F32.units out < ((k + 1) * F32.one : Int) ∧
          (pidDuty F32.numerics c.params out).toNat = k

/-- The formulas of 41 R101 to R106 over the rationals: under EXACT `INV_P` is the reciprocal of `P`, so step 3 is
the division by `dt` (90_conflicts C1). -/
def Obligations.ExactPidStepIsTheRealFormula : Prop :=
  ∀ (p : Params Rat), wellFormedParams Exact.numerics p = true → ∀ e i pe : Rat,
    let res := pidStep Exact.numerics p e i pe
    let i2 := max (p.dutyMin : Rat) (min (p.dutyMax : Rat) (i + p.ki * p.period * (e + pe) / 2))
    let out := p.kp * e + i2 + p.kd * ((e - pe) / p.period)
    res.integ = i2 ∧ res.prevErr = e ∧
      (res.duty.toNat : Int) = if (p.dutyMax : Rat) < out then (p.dutyMax : Int)
        else if out < (p.dutyMin : Rat) then 0 else out.floor

/-- The two range properties of 41 R110 and R111 hold under EXACT as well (decision D8). -/
def Obligations.ExactIntegralAndDutyKeepTheirRanges : Prop :=
  ∀ (p : Params Rat), wellFormedParams Exact.numerics p = true → ∀ e i pe : Rat,
    ((p.dutyMin : Rat) ≤ (pidStep Exact.numerics p e i pe).integ ∧
        (pidStep Exact.numerics p e i pe).integ ≤ (p.dutyMax : Rat)) ∧
      LegalDuty p (pidStep Exact.numerics p e i pe).duty

/-- R115: the first step after Idle finds previousError and accumulator 0; its derivative is the error times
`INV_P` and its increment half a rectangle. -/
def Obligations.RestartUsesAClearedHistory : Prop :=
  ∀ (s : State) (ci : ControlInput) (sc : SensorCode), s.mode = .idle → IdleCleared F32.numerics s.toRegs →
    ci ≠ 0 →
    let p := s.cfg.params
    let e := errorOf F32.numerics p sc
    let res := pidStep F32.numerics p e (F32.num 0) (F32.num 0)
    (∃ t, exec (.sample ci sc) s = .next t ∧ t.integ = res.integ ∧ t.dutyNext = res.duty ∧ t.prevErr = e) ∧
      (∃ t, exec (.tick ci sc) s = .next t ∧ t.integ = res.integ ∧ t.dutyNext = res.duty ∧ t.prevErr = e) ∧
      pidDerivative F32.numerics p e (F32.num 0) = F32.fmul e p.invP ∧
      pidIntegral F32.numerics p e (F32.num 0) (F32.num 0) =
        F32.fadd (F32.num 0) (F32.fhalf (F32.fmul (F32.fmul p.ki p.period) e))

/-- Zero error from a cleared history: the accumulator is raised to DUTY_MIN and the duty is DUTY_MIN (R117). -/
def Obligations.ZeroErrorFromZeroGivesDutyMin : Prop :=
  ∀ c : Configuration, pidStep F32.numerics c.params (F32.num 0) (F32.num 0) (F32.num 0) =
    { duty := BitVec.ofNat 8 c.params.dutyMin, integ := F32.num c.params.dutyMin, prevErr := F32.num 0 }

/-- R109: `at_setpoint` says whether the magnitude of the current error is strictly below the threshold, and nothing
of the earlier state; with no error computed it is cleared. -/
def Obligations.AtSetpointIsTheCurrentErrorAlone : Prop :=
  ∀ (s : State) (ci : ControlInput) (sc : SensorCode), ∃ t u : State,
    exec (.sample ci sc) s = .next t ∧ exec (.tick ci sc) s = .next u ∧ t.atSetpoint = u.atSetpoint ∧
      (ci = 0 → t.atSetpoint = false) ∧
      (ci ≠ 0 → t.atSetpoint =
        decide (|F32.units (errorOf F32.numerics s.cfg.params sc)| < F32.units s.cfg.params.threshold))

/-! ## The translator -/

/-- R95: the table is non-decreasing, and so the error is non-increasing in the sensor code. -/
def Obligations.TranslatorIsMonotone : Prop :=
  ∀ (c : Configuration) (sc sc' : SensorCode), sc.toNat ≤ sc'.toNat →
    F32.units (translate c.params sc) ≤ F32.units (translate c.params sc') ∧
      F32.units (errorOf F32.numerics c.params sc') ≤ F32.units (errorOf F32.numerics c.params sc)

/-- R93: `temp_reg` takes the translated temperature of the operation that computed it and is written by no other
(`RST` leaves it unspecified); it is a write-only trace: changing it changes nothing else. -/
def Obligations.TempRegIsAWriteOnlyTrace : Prop :=
  (∀ (s : State) (ci : ControlInput) (sc : SensorCode), ∃ t u : State,
      exec (.sample ci sc) s = .next t ∧ exec (.tick ci sc) s = .next u ∧
        t.tempReg = (if ci = 0 then s.tempReg else translate s.cfg.params sc) ∧ u.tempReg = t.tempReg) ∧
    (∀ s : State, ∃ t u : State, exec .nop s = .next t ∧ exec .reload s = .next u ∧
      t.tempReg = s.tempReg ∧ u.tempReg = s.tempReg) ∧
    ∀ (s : State) (x : F32) (i : Instr), ∃ t u : State,
      exec i s = .next t ∧ exec i { s with tempReg := x } = .next u ∧ { u with tempReg := t.tempReg } = t

/-! ## The power state machine and the gate -/

/-- R132 and R138: the new mode and the gate are functions of the control input alone, at once; `NOP` and `RELOAD`
change neither. -/
def Obligations.ModeAndGateFollowTheKnob : Prop :=
  (∀ (s : State) (ci : ControlInput) (sc : SensorCode), ∃ t u : State,
      exec (.sample ci sc) s = .next t ∧ exec (.tick ci sc) s = .next u ∧
        t.mode = (if ci = 0 then .idle else .running) ∧ u.mode = t.mode ∧
        t.genEnable = decide (ci ≠ 0) ∧ u.genEnable = t.genEnable) ∧
    ∀ s : State, ∃ t u : State, exec .nop s = .next t ∧ exec .reload s = .next u ∧
      t.mode = s.mode ∧ u.mode = s.mode ∧ t.genEnable = s.genEnable ∧ u.genEnable = s.genEnable

/-- R25: the latch changes only by a copy of the old handoff register, in `RELOAD` or `TICK`, and by `RST`, which
clears it. -/
def Obligations.LatchTakesOnlyTheOldHandoff : Prop :=
  ∀ (s : State) (i : Instr), ∃ t, exec i s = .next t ∧
    t.dutyActive = (match i with
      | .rst => 0
      | .nop => s.dutyActive
      | .reload => s.dutyNext
      | .sample _ _ => s.dutyActive
      | .tick _ _ => s.dutyNext)

/-- R156: between one `TICK` and the next, with any number of `NOP`s between, the duty waits; and the first `TICK`
after `RST` applies 0. -/
def Obligations.DutyTakesEffectOnePeriodLater : Prop :=
  (∀ (s t : State) (ws rest : List (EventWord s.ciWidth)) (ci ci' : ControlInput) (sc sc' : SensorCode)
      (w : EventWord s.ciWidth),
      (∀ v ∈ ws, decode v = .nop) → decode w = .tick ci' sc' →
      exec (.tick ci sc) { s with events := ws ++ w :: rest } = .next t →
      ∃ u, core.run (ws.length + 1) t = .next u ∧ u.dutyActive = t.dutyNext) ∧
    ∀ (s t : State) (ws rest : List (EventWord s.ciWidth)) (ci : ControlInput) (sc : SensorCode)
      (w : EventWord s.ciWidth),
      (∀ v ∈ ws, decode v = .nop) → decode w = .tick ci sc →
      exec .rst { s with events := ws ++ w :: rest } = .next t →
      ∃ u, core.run (ws.length + 1) t = .next u ∧ u.dutyActive = 0

/-- R159: with the gate closed the heater is off whatever the latch holds; a `TICK` into Idle may leave a stale duty
there, gated off; the first Running period after Idle has `duty_active` = 0. -/
def Obligations.GateOverridesTheLatch : Prop :=
  (∀ r : Regs F32, r.genEnable = false → HeaterOff r) ∧
    (∀ (s : State) (sc : SensorCode), ∃ t, exec (.tick 0 sc) s = .next t ∧ t.dutyActive = s.dutyNext ∧
      t.dutyNext = 0 ∧ t.genEnable = false ∧ HeaterOff t.toRegs) ∧
    ∀ (s : State) (ci : ControlInput) (sc : SensorCode), s.mode = .idle → IdleCleared F32.numerics s.toRegs →
      ci ≠ 0 → ∃ t, exec (.tick ci sc) s = .next t ∧ t.dutyActive = 0 ∧ HeaterOff t.toRegs

/-! ## Invariants -/

/-- 10_state R35 and R36: every step keeps the gate equal to the mode, the Idle values in Idle, and both duties off
or in the band. -/
def Obligations.StepKeepsTheSafeRegisters : Prop :=
  ∀ s t : State, SafeRegs F32.numerics s.cfg.params s.toRegs → step s = .next t →
    SafeRegs F32.numerics t.cfg.params t.toRegs

/-- The state after reset has them. -/
def Obligations.ResetHasTheSafeRegisters : Prop :=
  SafeRegs F32.numerics State.reset.cfg.params State.reset.toRegs

/-- 10_state R37: every step keeps `integ` 0 or in the band, in the band while Running. -/
def Obligations.StepKeepsTheIntegralBounded : Prop :=
  ∀ s t : State, IntegBounded F32.numerics s.cfg.params s.toRegs → step s = .next t →
    IntegBounded F32.numerics t.cfg.params t.toRegs

/-- The state after reset has it bounded. -/
def Obligations.ResetHasTheIntegralBounded : Prop :=
  IntegBounded F32.numerics State.reset.cfg.params State.reset.toRegs

/-- 41 R118 (with the two factors of log 10): under an accepted configuration no intermediate of `pid_step`
overflows and none is a NaN. -/
def Obligations.NoIntermediateOverflows : Prop :=
  ∀ (c : Configuration) (sc : SensorCode) (i pe : F32),
    let p := c.params
    let e := errorOf F32.numerics p sc
    let i2 := (pidStep F32.numerics p e i pe).integ
    let dIn := pidDerivative F32.numerics p e pe
    (i = F32.num 0 ∨ InBand F32.numerics p i) → ErrorOfSomeCode F32.numerics p pe →
      ∀ x ∈ [e, F32.fmul p.ki p.period, F32.fadd e pe,
          F32.fmul (F32.fmul p.ki p.period) (F32.fadd e pe),
          F32.fhalf (F32.fmul (F32.fmul p.ki p.period) (F32.fadd e pe)),
          pidIntegral F32.numerics p e i pe, i2, F32.fsub e pe, dIn, F32.fmul p.kp e,
          F32.fadd (F32.fmul p.kp e) i2, F32.fmul p.kd dIn, pidOutput F32.numerics p e i2 dIn],
        F32.isFinite x = true

/-- The heater is never on in Idle (95 section 9 (e)): wherever the gate is the mode, a step that ends in Idle
leaves the heater off. -/
def Obligations.HeaterIsOffInIdle : Prop :=
  ∀ s t : State, GateIsMode s.toRegs → step s = .next t → t.mode = .idle → HeaterOff t.toRegs

/-- No operation writes the configuration: every step keeps it, and with it every read of the table (R5, R62). -/
def Obligations.StepKeepsTheConfiguration : Prop :=
  ∀ s t : State, step s = .next t →
    t.cfg = s.cfg ∧ ∀ sc : SensorCode, calRead t.cfg.params sc = calRead s.cfg.params sc

/-- R52: no operation reads the table of four candidate set points: with another one in the configuration, and any
words waiting, it leaves the same registers. -/
def Obligations.SetPointTableIsNeverRead : Prop :=
  ∀ (s : State) (c : Configuration) (events : List (EventWord c.params.ciWidth)) (i : Instr),
    { c.params with setPointTable := s.cfg.params.setPointTable } = s.cfg.params →
    ∃ t : State, exec i s = .next t ∧
      exec i { s with cfg := c, events := events } = .next { t with cfg := c, events := events }

/-! ## Reset, configuration, outputs -/

/-- R34: the values the registers hold after reset (of `temp_reg` nothing is said), and the outputs they give. -/
def Obligations.ResetValuesAreThoseOfTheSpec : Prop :=
  State.reset.mode = .idle ∧ State.reset.integ = 0x00000000#32 ∧ State.reset.prevErr = 0x00000000#32 ∧
    State.reset.dutyNext = 0 ∧ State.reset.dutyActive = 0 ∧ State.reset.genEnable = false ∧
    State.reset.atSetpoint = false ∧
    (outputs State.reset.toRegs).running = false ∧ (outputs State.reset.toRegs).heaterGate = false ∧
    (outputs State.reset.toRegs).dutyOut = 0 ∧ (outputs State.reset.toRegs).atSetpoint = false

/-- R7: every configuration a state can hold meets items (a) to (f), and an instance with any that does not is
refused. -/
def Obligations.OnlyWellFormedConfigurationsRun : Prop :=
  (∀ c : Configuration,
      (c.params.dutyMin ≤ c.params.dutyMax ∧ c.params.dutyMax ≤ 255) ∧
      (0 < c.params.periodLit ∧ 0 < F32.units c.params.period) ∧
      (c.params.period = F32.num c.params.periodLit ∧ c.params.invP = F32.num (1 / c.params.periodLit)) ∧
      (∀ x ∈ [c.params.period, c.params.invP, c.params.kp, c.params.ki, c.params.kd, c.params.setPoint,
          c.params.threshold] ++ c.params.cal.entries ++ c.params.setPointTable.toList, F32.isFinite x = true) ∧
      (∀ k : Nat, k < 255 → F32.units (calRead c.params (BitVec.ofNat 8 k)) ≤
        F32.units (calRead c.params (BitVec.ofNat 8 (k + 1)))) ∧
      0 ≤ F32.units c.params.threshold) ∧
    ∀ p : Params F32, wellFormedParams F32.numerics p = false → instanceOf p = .error .illFormedConfig

/-- R70: after every operation the outputs are plain copies of the registers, `running` being `mode` (R29). -/
def Obligations.OutputsAreCopiesOfTheRegisters : Prop :=
  ∀ (s : State) (i : Instr), ∃ t, exec i s = .next t ∧
    (outputs t.toRegs).dutySet = t.dutyNext ∧ (outputs t.toRegs).dutyOut = t.dutyActive ∧
      (outputs t.toRegs).heaterGate = t.genEnable ∧ ((outputs t.toRegs).running = true ↔ t.mode = .running) ∧
      (outputs t.toRegs).atSetpoint = t.atSetpoint ∧ (outputs t.toRegs).tempOut = t.tempReg

/-! ## The numerics -/

/-- 00_scope R13: on finite operands `fadd`, `fsub`, `fmul` and `fhalf` give, where the result is finite, the number
nearest to the exact one (no finite number is nearer), and of two equally near the one with an even last bit. -/
def Obligations.PrimitivesRoundToNearestEven : Prop :=
  ∀ a b z : F32, F32.isFinite a = true → F32.isFinite b = true → F32.isFinite z = true →
    (∀ r ∈ [(F32.fadd a b, (F32.units a + F32.units b, (1 : Int))),
        (F32.fsub a b, (F32.units a - F32.units b, 1)),
        (F32.fmul a b, (F32.units a * F32.units b, (F32.one : Int))),
        (F32.fhalf a, (F32.units a, 2))],
      F32.isFinite r.1 = true →
        |F32.units r.1 * r.2.2 - r.2.1| ≤ |F32.units z * r.2.2 - r.2.1| ∧
          (|F32.units r.1 * r.2.2 - r.2.1| = |F32.units z * r.2.2 - r.2.1| → F32.units z ≠ F32.units r.1 →
            r.1.getLsbD 0 = false))

/-- A sum of finite numbers is infinite exactly when its magnitude is at least the greatest finite number plus half its
last place, 2^128 - 2^103. 00_scope R13 names the format and the rounding; that an overflow gives infinity, and from
where, is the model's presumption (log 7). -/
def Obligations.SumOverflowsToInfinity : Prop :=
  ∀ a b : F32, F32.isFinite a = true → F32.isFinite b = true →
    F32.isNaN (F32.fadd a b) = false ∧
      (F32.isInf (F32.fadd a b) = true ↔
        ((2 ^ 277 - 2 ^ 252 : Nat) : Int) ≤ |F32.units a + F32.units b|)

/-! ## Traces -/

/-- R80: the pseudo-operations and their expansions; `PERIOD ci, sc` leaves the same state as `TICK ci, sc`. -/
def Obligations.PseudoOperationsExpandAsListed : Prop :=
  TraceLine.off.expand = [.tick 0 0] ∧ (∀ sc, (TraceLine.run sc).expand = [.tick 1 sc]) ∧
    (∀ n, (TraceLine.wait n).expand = List.replicate n .nop) ∧
    (∀ ci sc, (TraceLine.period ci sc).expand = [.reload, .sample ci sc]) ∧
    ∀ (s : State) (ci : ControlInput) (sc : SensorCode) (rest : List (EventWord s.ciWidth)),
      ci < 2 ^ s.ciWidth → ∃ t,
        core.run 2 { s with events := assemble s.ciWidth [.period ci sc] ++ rest } = .next t ∧
          core.run 1 { s with events := assemble s.ciWidth [.op (.tick ci sc)] ++ rest } = .next t

/-! ## The width of the control input -/

/-- 30_encoding R76 and 93 U3: at any width of the control input (the layout the model's choice, log 12) an event word
does what the 13-bit word with the same event bits, the same sensor code and a control input alike in being 0 or not
does. -/
def Obligations.AnyControlInputWidthActsAsTheDefault : Prop :=
  ∀ (ciWidth : Nat) (w : EventWord ciWidth) (v : EventWord 2) (s : State),
    w.toNat / 2 ^ (8 + ciWidth) = v.toNat / 2 ^ 10 → w.toNat % 2 ^ 8 = v.toNat % 2 ^ 8 →
    (w.toNat / 2 ^ 8 % 2 ^ ciWidth = 0 ↔ v.toNat / 2 ^ 8 % 2 ^ 2 = 0) →
    exec (decode w) s = exec (decode v) s
end

