-- ==== Sys2Proof/Laws/Float.lean ====
section
/-! SUPPORT. What the rounding of F32 can do, said once: the value of a rounded pattern, its distance from the
exact number, its monotonicity, and that a representable number is kept. -/

namespace Sys2Proof.Laws

open Sys2Proof.F32

/-! Patterns. -/

theorem infMag_eq : infMag = 2139095040 := rfl

theorem mag_pack (neg : Bool) {m : Nat} (h : m ≤ infMag) : mag (pack neg m) = m := by
  rw [infMag_eq] at h
  simp only [mag, pack, BitVec.toNat_ofNat]
  cases neg <;> simp <;> omega

theorem isNeg_pack (neg : Bool) {m : Nat} (h : m ≤ infMag) : isNeg (pack neg m) = neg := by
  rw [infMag_eq] at h
  simp only [isNeg, pack, BitVec.msb_eq_decide, BitVec.toNat_ofNat]
  cases neg <;> simp <;> omega

theorem roundMag_le (n d : Nat) : roundMag n d ≤ infMag := Nat.min_le_right _ _

theorem magUnits_pack (neg : Bool) {m : Nat} (h : m ≤ infMag) : magUnits (pack neg m) = magValue m := by
  rw [magUnits, mag_pack neg h]

theorem magUnits_rounded (neg : Bool) (n d : Nat) : magUnits (rounded neg n d) = magValue (roundMag n d) :=
  magUnits_pack neg (roundMag_le n d)

theorem isNaN_rounded (neg : Bool) (n d : Nat) : isNaN (rounded neg n d) = false := by
  rw [isNaN, rounded, mag_pack neg (roundMag_le n d)]
  have := roundMag_le n d
  simp
  omega

theorem isFinite_rounded (neg : Bool) (n d : Nat) :
    isFinite (rounded neg n d) = decide (roundMag n d < infMag) := by
  rw [isFinite, rounded, mag_pack neg (roundMag_le n d)]

theorem isNaN_of_isFinite {x : F32} (h : isFinite x = true) : isNaN x = false := by
  simp only [isFinite, isNaN, decide_eq_true_eq, decide_eq_false_iff_not] at *
  omega

/-- A number by its sign and magnitude. -/
theorem units_rounded (neg : Bool) (n d : Nat) :
    units (rounded neg n d) =
      if neg then -(magValue (roundMag n d) : Int) else (magValue (roundMag n d) : Int) := by
  rw [units, magUnits_rounded, rounded, isNeg_pack neg (roundMag_le n d)]

theorem natAbs_units (x : F32) : (units x).natAbs = magUnits x := by
  rw [units]
  split <;> simp

/-- Values of patterns, by the exponent field `e + 1` and the fraction `f`. -/
theorem magValue_normal (e f : Nat) (h : f < 2 ^ 23) :
    magValue ((e + 1) * 2 ^ 23 + f) = (2 ^ 23 + f) * 2 ^ e := by
  have h1 : ((e + 1) * 2 ^ 23 + f) / 2 ^ 23 = e + 1 := by omega
  have h2 : ((e + 1) * 2 ^ 23 + f) % 2 ^ 23 = f := by omega
  rw [magValue, h1, h2, if_neg (by omega), Nat.add_sub_cancel]

theorem magValue_subnormal (f : Nat) (h : f < 2 ^ 23) : magValue f = f := by
  rw [magValue, if_pos (by omega), Nat.mod_eq_of_lt h]

/-- Every pattern is a subnormal one or a normal one. -/
theorem magPattern_cases (m : Nat) :
    m < 2 ^ 23 ∨ ∃ e f, f < 2 ^ 23 ∧ m = (e + 1) * 2 ^ 23 + f := by
  rcases Nat.lt_or_ge m (2 ^ 23) with h | h
  · exact .inl h
  · exact .inr ⟨m / 2 ^ 23 - 1, m % 2 ^ 23, Nat.mod_lt _ (by omega), by omega⟩

theorem magValue_lt_succ (m : Nat) : magValue m < magValue (m + 1) := by
  rcases magPattern_cases m with h | ⟨e, f, hf, rfl⟩
  · rcases Nat.lt_or_ge (m + 1) (2 ^ 23) with h' | h'
    · rw [magValue_subnormal m h, magValue_subnormal _ h']
      omega
    · have : m + 1 = (0 + 1) * 2 ^ 23 + 0 := by omega
      rw [magValue_subnormal m h, this, magValue_normal 0 0 (by omega)]
      omega
  · rcases Nat.lt_or_ge (f + 1) (2 ^ 23) with h' | h'
    · rw [magValue_normal e f hf, Nat.add_assoc, magValue_normal e (f + 1) h']
      exact Nat.mul_lt_mul_of_pos_right (by omega) (by positivity)
    · have : (e + 1) * 2 ^ 23 + f + 1 = (e + 1 + 1) * 2 ^ 23 + 0 := by omega
      rw [magValue_normal e f hf, this, magValue_normal (e + 1) 0 (by omega)]
      have hpow : (2 ^ 23 + 0) * 2 ^ (e + 1) = 2 ^ 24 * 2 ^ e := by ring
      rw [hpow]
      exact Nat.mul_lt_mul_of_pos_right (by omega) (by positivity)

/-- The order of magnitude patterns is the order of their values. -/
theorem magValue_strictMono : StrictMono magValue := strictMono_nat_of_lt_succ magValue_lt_succ

/-- A pattern with exponent field past `e` has a value that is a multiple of `2^e`. -/
theorem dvd_magValue {e m : Nat} (h : (e + 1) * 2 ^ 23 ≤ m) : 2 ^ e ∣ magValue m := by
  rcases magPattern_cases m with h' | ⟨e', f, hf, rfl⟩
  · omega
  · rw [magValue_normal e' f hf]
    exact Dvd.dvd.mul_left (Nat.pow_dvd_pow 2 (by omega)) _

/-! The rounding to an integer. -/

theorem divEven_le (n d : Nat) : divEven n d ≤ n / d + 1 := by
  rw [divEven]
  split_ifs <;> omega

theorem le_divEven (n d : Nat) : n / d ≤ divEven n d := by
  rw [divEven]
  split_ifs <;> omega

theorem divEven_mul (k : Nat) {d : Nat} (h : 0 < d) : divEven (k * d) d = k := by
  rw [divEven, Nat.mul_mod_left, if_pos (by omega), Nat.mul_div_cancel k h]

/-- At most half a unit above … -/
theorem two_divEven_le (n : Nat) {d : Nat} (h : 0 < d) : 2 * (divEven n d * d) ≤ 2 * n + d := by
  have hn := Nat.div_add_mod' n d
  have hr := Nat.mod_lt n h
  rw [divEven]
  split_ifs <;> (try rw [Nat.add_mul]) <;> omega

/-- … and at most half a unit below. -/
theorem le_two_divEven (n : Nat) {d : Nat} (h : 0 < d) : 2 * n ≤ 2 * (divEven n d * d) + d := by
  have hn := Nat.div_add_mod' n d
  have hr := Nat.mod_lt n h
  rw [divEven]
  split_ifs <;> (try rw [Nat.add_mul]) <;> omega

theorem divEven_mono {n d n' d' : Nat} (hd : 0 < d) (hd' : 0 < d') (h : n * d' ≤ n' * d) :
    divEven n d ≤ divEven n' d' := by
  have hq : n / d ≤ n' / d' := by
    rw [Nat.le_div_iff_mul_le hd']
    have h1 : n / d * d ≤ n := Nat.div_mul_le_self n d
    nlinarith [Nat.mul_le_mul_right d' h1]
  rcases Nat.lt_or_ge (n / d) (n' / d') with hlt | hge
  · exact (divEven_le n d).trans (Nat.le_trans hlt (le_divEven n' d'))
  · have heq : n / d = n' / d' := le_antisymm hq hge
    have hr : n % d * d' ≤ n' % d' * d := by
      have hn := Nat.div_add_mod' n d
      have hn' := Nat.div_add_mod' n' d'
      rw [heq] at hn
      nlinarith
    simp only [divEven, heq]
    split_ifs <;> first | omega | (exfalso; nlinarith)

/-! The last place. -/

theorem lt_two_pow_bitLength (n : Nat) : n < 2 ^ bitLength n := by
  rw [bitLength]
  split
  · omega
  · exact Nat.lt_log2_self

theorem two_pow_le_of_bitLength {n k : Nat} (h : k < bitLength n) : 2 ^ k ≤ n := by
  rw [bitLength] at h
  split at h
  · omega
  · rename_i hn
    exact (Nat.pow_le_pow_right (by omega) (by omega)).trans (Nat.log2_self_le hn)

theorem bitLength_mono {a b : Nat} (h : a ≤ b) : bitLength a ≤ bitLength b := by
  by_contra hc
  have h1 := two_pow_le_of_bitLength (Nat.lt_of_not_le hc)
  have h2 := lt_two_pow_bitLength b
  omega

theorem lastPlace_mono {n d n' d' : Nat} (hd' : 0 < d') (h : n * d' ≤ n' * d) (hd : 0 < d) :
    lastPlace n d ≤ lastPlace n' d' := by
  have hq : n / d ≤ n' / d' := by
    rw [Nat.le_div_iff_mul_le hd']
    have h1 : n / d * d ≤ n := Nat.div_mul_le_self n d
    nlinarith [Nat.mul_le_mul_right d' h1]
  exact Nat.sub_le_sub_right (bitLength_mono hq) 24

/-- The significand before rounding is below 2^24 … -/
theorem lt_of_lastPlace (n : Nat) {d : Nat} (hd : 0 < d) : n < 2 ^ 24 * (d * 2 ^ lastPlace n d) := by
  have h1 := lt_two_pow_bitLength (n / d)
  have h2 : bitLength (n / d) ≤ 24 + lastPlace n d := by
    rw [lastPlace]
    omega
  have h3 : n / d < 2 ^ (24 + lastPlace n d) := h1.trans_le (Nat.pow_le_pow_right (by omega) h2)
  rw [Nat.div_lt_iff_lt_mul hd, Nat.pow_add] at h3
  rw [Nat.mul_comm d, ← Nat.mul_assoc]
  exact h3

/-- … and at least 2^23 wherever a place is dropped. -/
theorem le_of_lastPlace {n d : Nat} (hd : 0 < d) (h : 0 < lastPlace n d) :
    2 ^ 23 * (d * 2 ^ lastPlace n d) ≤ n := by
  have h1 : 23 + lastPlace n d < bitLength (n / d) := by
    rw [lastPlace] at *
    omega
  have h2 := two_pow_le_of_bitLength h1
  rw [Nat.le_div_iff_mul_le hd, Nat.pow_add] at h2
  rw [Nat.mul_comm d, ← Nat.mul_assoc]
  exact h2

/-- The rounded significand. -/
theorem significand_le (n : Nat) {d : Nat} (hd : 0 < d) : divEven n (d * 2 ^ lastPlace n d) ≤ 2 ^ 24 := by
  have h0 : 0 < d * 2 ^ lastPlace n d := by positivity
  have h := divEven_mono h0 h0 (n' := 2 ^ 24 * (d * 2 ^ lastPlace n d))
    (Nat.mul_le_mul_right _ (lt_of_lastPlace n hd).le)
  rwa [divEven_mul _ h0] at h

theorem le_significand {n d : Nat} (hd : 0 < d) (h : 0 < lastPlace n d) :
    2 ^ 23 ≤ divEven n (d * 2 ^ lastPlace n d) := by
  have h0 : 0 < d * 2 ^ lastPlace n d := by positivity
  exact ((Nat.le_div_iff_mul_le h0).mpr (le_of_lastPlace hd h)).trans (le_divEven _ _)

/-- The pattern before the cut at infinity has the value of its significand at its last place. -/
theorem magValue_significand {e q : Nat} (hq : q ≤ 2 ^ 24) (he : 0 < e → 2 ^ 23 ≤ q) :
    magValue (e * 2 ^ 23 + q) = q * 2 ^ e := by
  rcases Nat.lt_or_ge q (2 ^ 23) with h | h
  · have : e = 0 := by
      by_contra hc
      exact absurd (he (Nat.pos_of_ne_zero hc)) (by omega)
    subst this
    rw [Nat.zero_mul, Nat.zero_add, Nat.pow_zero, Nat.mul_one, magValue_subnormal q h]
  · rcases Nat.lt_or_ge q (2 ^ 24) with h' | h'
    · have : e * 2 ^ 23 + q = (e + 1) * 2 ^ 23 + (q - 2 ^ 23) := by omega
      rw [this, magValue_normal e _ (by omega), Nat.add_sub_cancel' h]
    · have hq' : q = 2 ^ 24 := by omega
      have : e * 2 ^ 23 + q = (e + 1 + 1) * 2 ^ 23 + 0 := by omega
      rw [this, magValue_normal (e + 1) 0 (by omega), hq']
      ring

/-- A rounded magnitude, said once: infinity's pattern, or the rounded significand at the last place. -/
theorem roundMag_cases (n : Nat) {d : Nat} (hd : 0 < d) :
    (roundMag n d = infMag ∧ magValue infMag ≤ divEven n (d * 2 ^ lastPlace n d) * 2 ^ lastPlace n d) ∨
      (roundMag n d < infMag ∧
        magValue (roundMag n d) = divEven n (d * 2 ^ lastPlace n d) * 2 ^ lastPlace n d) := by
  have hv := magValue_significand (significand_le n hd) (fun h => le_significand hd h)
  rw [roundMag]
  rcases Nat.lt_or_ge (lastPlace n d * 2 ^ 23 + divEven n (d * 2 ^ lastPlace n d)) infMag with h | h
  · rw [Nat.min_eq_left h.le, ← hv]
    exact .inr ⟨h, rfl⟩
  · rw [Nat.min_eq_right h, ← hv]
    exact .inl ⟨rfl, magValue_strictMono.monotone h⟩

/-- Rounding keeps the order. -/
theorem roundMag_mono {n d n' d' : Nat} (hd : 0 < d) (hd' : 0 < d') (h : n * d' ≤ n' * d) :
    roundMag n d ≤ roundMag n' d' := by
  refine min_le_min_right _ ?_
  have hl := lastPlace_mono hd' h hd
  rcases Nat.lt_or_ge (lastPlace n d) (lastPlace n' d') with hlt | hge
  · have h1 := significand_le n hd
    have h2 := le_significand hd' (by omega : 0 < lastPlace n' d')
    have h3 : (lastPlace n d + 1) * 2 ^ 23 ≤ lastPlace n' d' * 2 ^ 23 := Nat.mul_le_mul_right _ hlt
    omega
  · have heq : lastPlace n d = lastPlace n' d' := le_antisymm hl hge
    rw [heq]
    refine Nat.add_le_add_left (divEven_mono (by positivity) (by positivity) ?_) _
    calc n * (d' * 2 ^ lastPlace n' d') = n * d' * 2 ^ lastPlace n' d' := (Nat.mul_assoc _ _ _).symm
      _ ≤ n' * d * 2 ^ lastPlace n' d' := Nat.mul_le_mul_right _ h
      _ = n' * (d * 2 ^ lastPlace n' d') := Nat.mul_assoc _ _ _

theorem bitLength_lt {n k : Nat} (h : n < 2 ^ k) : bitLength n ≤ k := by
  by_contra hc
  exact absurd (two_pow_le_of_bitLength (Nat.lt_of_not_le hc)) (by omega)

/-- A representable number is kept. -/
theorem roundMag_magValue {m d : Nat} (hm : m ≤ infMag) (hd : 0 < d) : roundMag (magValue m * d) d = m := by
  have hdiv : magValue m * d / d = magValue m := Nat.mul_div_cancel _ hd
  rcases magPattern_cases m with h | ⟨e, f, hf, rfl⟩
  · rw [magValue_subnormal m h] at *
    have hl : lastPlace (m * d) d = 0 := by
      rw [lastPlace, hdiv]
      have := bitLength_lt (h.trans (by omega : 2 ^ 23 < 2 ^ 24))
      omega
    rw [roundMag, hl, Nat.pow_zero, Nat.mul_one, divEven_mul m hd, Nat.zero_mul, Nat.zero_add, Nat.min_eq_left hm]
  · rw [magValue_normal e f hf] at *
    have hl : lastPlace ((2 ^ 23 + f) * 2 ^ e * d) d = e := by
      rw [lastPlace, hdiv]
      have h1 : bitLength ((2 ^ 23 + f) * 2 ^ e) ≤ 24 + e := by
        apply bitLength_lt
        rw [Nat.pow_add]
        exact Nat.mul_lt_mul_of_pos_right (by omega) (by positivity)
      have h2 : 23 + e < bitLength ((2 ^ 23 + f) * 2 ^ e) := by
        by_contra hc
        have := lt_two_pow_bitLength ((2 ^ 23 + f) * 2 ^ e)
        have h3 : (2 ^ 23 + f) * 2 ^ e < 2 ^ (23 + e) :=
          this.trans_le (Nat.pow_le_pow_right (by omega) (Nat.le_of_not_lt hc))
        rw [Nat.pow_add] at h3
        exact absurd (Nat.lt_of_mul_lt_mul_right h3) (by omega)
      omega
    have hmul : (2 ^ 23 + f) * 2 ^ e * d = (2 ^ 23 + f) * (d * 2 ^ e) := by ring
    rw [roundMag, hl, hmul, divEven_mul _ (by positivity)]
    rw [show e * 2 ^ 23 + (2 ^ 23 + f) = (e + 1) * 2 ^ 23 + f by ring, Nat.min_eq_left hm]

/-- A number at most a representable one rounds to at most that one. -/
theorem roundMag_le_of_le {n d m : Nat} (hd : 0 < d) (hm : m ≤ infMag) (h : n ≤ magValue m * d) :
    roundMag n d ≤ m := by
  have := roundMag_mono hd hd (n' := magValue m * d) (Nat.mul_le_mul_right d h)
  rwa [roundMag_magValue hm hd] at this

/-- A number at least a representable one rounds to at least that one. -/
theorem le_roundMag_of_le {n d m : Nat} (hd : 0 < d) (hm : m ≤ infMag) (h : magValue m * d ≤ n) :
    m ≤ roundMag n d := by
  have := roundMag_mono hd hd (n := magValue m * d) (Nat.mul_le_mul_right d h)
  rwa [roundMag_magValue hm hd] at this

/-- How far above the exact number `n / d` a rounded one can lie: 2^-24 of it, or half a unit. -/
theorem magValue_roundMag_le (n : Nat) {d : Nat} (hd : 0 < d) :
    magValue (roundMag n d) * d * 2 ^ 24 ≤ n * (2 ^ 24 + 1) + d * 2 ^ 23 := by
  have h0 : 0 < d * 2 ^ lastPlace n d := by positivity
  have h1 := two_divEven_le n h0
  have hv : magValue (roundMag n d) ≤ divEven n (d * 2 ^ lastPlace n d) * 2 ^ lastPlace n d := by
    rcases roundMag_cases n hd with ⟨h, h'⟩ | ⟨-, h'⟩
    · rw [h]
      exact h'
    · exact h'.le
  have hv' : magValue (roundMag n d) * d ≤ divEven n (d * 2 ^ lastPlace n d) * (d * 2 ^ lastPlace n d) :=
    (Nat.mul_le_mul_right d hv).trans_eq (by ring)
  rcases Nat.eq_zero_or_pos (lastPlace n d) with hz | hp
  · rw [hz, Nat.pow_zero, Nat.mul_one] at h1 hv'
    omega
  · have h2 := le_of_lastPlace hd hp
    omega

end Sys2Proof.Laws
end

