-- ==== Sys2Proof/Laws/Numerics.lean ====
section
/-! SUPPORT. One spec lemma per primitive of F32 on finite operands, in terms of exact integers and `roundMag`. -/

namespace Sys2Proof.Laws

open Sys2Proof.F32

@[simp] theorem magValue_zero : magValue 0 = 0 := rfl

theorem roundMag_zero {d : Nat} (hd : 0 < d) : roundMag 0 d = 0 := by
  have := roundMag_magValue (Nat.zero_le infMag) hd
  rwa [magValue_zero, Nat.zero_mul] at this

theorem one_unit_pos : 0 < one := by
  rw [one]
  positivity

/-! Sign changes. -/

theorem isNeg_neg (x : F32) : isNeg (F32.neg x) = !isNeg x := by
  rw [isNeg, F32.neg, BitVec.msb_xor, show (0x80000000#32).msb = true from rfl, Bool.xor_true]
  rfl

theorem mag_neg (x : F32) : mag (F32.neg x) = mag x := by
  rw [mag, mag, ← BitVec.toNat_setWidth 31, ← BitVec.toNat_setWidth 31, F32.neg, BitVec.setWidth_xor]
  simp

theorem isNeg_fabs (x : F32) : isNeg (fabs x) = false := by
  rw [isNeg, fabs, BitVec.msb_and, show (0x7FFFFFFF#32).msb = false from rfl, Bool.and_false]

theorem mag_fabs (x : F32) : mag (fabs x) = mag x := by
  rw [mag, mag, fabs, BitVec.toNat_and, show (0x7FFFFFFF#32).toNat = 2 ^ 31 - 1 from rfl,
    Nat.and_two_pow_sub_one_eq_mod, Nat.mod_mod]

@[simp] theorem isFinite_neg (x : F32) : isFinite (F32.neg x) = isFinite x := by rw [isFinite, isFinite, mag_neg]
@[simp] theorem isNaN_neg (x : F32) : isNaN (F32.neg x) = isNaN x := by rw [isNaN, isNaN, mag_neg]
@[simp] theorem isInf_neg (x : F32) : isInf (F32.neg x) = isInf x := by rw [isInf, isInf, mag_neg]
@[simp] theorem isFinite_fabs (x : F32) : isFinite (fabs x) = isFinite x := by rw [isFinite, isFinite, mag_fabs]
@[simp] theorem isNaN_fabs (x : F32) : isNaN (fabs x) = isNaN x := by rw [isNaN, isNaN, mag_fabs]

/-- Flipping the sign bit negates the value. -/
@[simp] theorem units_neg (x : F32) : units (F32.neg x) = -units x := by
  rw [units, units, magUnits, mag_neg, isNeg_neg, ← magUnits]
  cases isNeg x <;> simp

/-- Clearing the sign bit gives the absolute value. -/
@[simp] theorem units_fabs (x : F32) : units (fabs x) = |units x| := by
  rw [units, units, magUnits, mag_fabs, isNeg_fabs, ← magUnits]
  cases isNeg x <;> simp

/-! Rounding with a sign. -/

/-- A sign that agrees with the exact number `s / d` gives a result on the same side of zero. -/
theorem units_rounded_of_sign (s : Int) (d : Nat) :
    units (rounded (decide (s < 0)) s.natAbs d) =
      if s < 0 then -(magValue (roundMag s.natAbs d) : Int) else (magValue (roundMag s.natAbs d) : Int) := by
  rw [units_rounded]
  by_cases h : s < 0 <;> simp [h]

/-! The primitives. -/

theorem fadd_of_finite {a b : F32} (ha : isFinite a = true) (hb : isFinite b = true) :
    fadd a b = addFinite a b := by
  rw [fadd, addOp, ha, hb]
  rfl

theorem fsub_of_finite {a b : F32} (ha : isFinite a = true) (hb : isFinite b = true) :
    fsub a b = addFinite a (F32.neg b) := by
  rw [fsub, addOp, ha, isFinite_neg, hb]
  rfl

theorem fmul_of_finite {a b : F32} (ha : isFinite a = true) (hb : isFinite b = true) :
    fmul a b = rounded (isNeg a != isNeg b) (magUnits a * magUnits b) one := by
  rw [fmul, ha, hb]
  rfl

theorem fhalf_of_finite {a : F32} (ha : isFinite a = true) :
    fhalf a = rounded (isNeg a) (magUnits a) 2 := by
  rw [fhalf, ha]
  rfl

/-- The magnitude of a sum of finite numbers is the exact sum's, rounded. -/
theorem mag_addFinite (a b : F32) : mag (addFinite a b) = roundMag (units a + units b).natAbs 1 := by
  rw [addFinite]
  split
  · rename_i h
    rw [h, mag_pack _ (Nat.zero_le _), Int.natAbs_zero, roundMag_zero Nat.one_pos]
  · rw [rounded, mag_pack _ (roundMag_le _ _)]

theorem magUnits_addFinite (a b : F32) :
    magUnits (addFinite a b) = magValue (roundMag (units a + units b).natAbs 1) := by
  rw [magUnits, mag_addFinite]

/-- The value of a sum of finite numbers: the exact sum, rounded on its own side of zero. -/
theorem units_addFinite (a b : F32) :
    units (addFinite a b) =
      if units a + units b < 0 then -(magValue (roundMag (units a + units b).natAbs 1) : Int)
      else (magValue (roundMag (units a + units b).natAbs 1) : Int) := by
  by_cases h : units a + units b = 0
  · have hz : magUnits (addFinite a b) = 0 := by
      rw [magUnits_addFinite, h, Int.natAbs_zero, roundMag_zero Nat.one_pos, magValue_zero]
    have : (units (addFinite a b)).natAbs = 0 := (natAbs_units _).trans hz
    rw [Int.natAbs_eq_zero.mp this, h, if_neg (by omega), Int.natAbs_zero, roundMag_zero Nat.one_pos]
    rfl
  · rw [addFinite, if_neg h, units_rounded_of_sign]

theorem isNaN_addFinite (a b : F32) : isNaN (addFinite a b) = false := by
  rw [isNaN, mag_addFinite]
  have := roundMag_le (units a + units b).natAbs 1
  simp only [decide_eq_false_iff_not]
  omega

theorem isFinite_addFinite (a b : F32) :
    isFinite (addFinite a b) = decide (roundMag (units a + units b).natAbs 1 < infMag) := by
  rw [isFinite, mag_addFinite]

/-- Comparisons of numbers that are no NaN are comparisons of values. -/
theorem flt_of_notNaN {a b : F32} (ha : isNaN a = false) (hb : isNaN b = false) :
    flt a b = decide (units a < units b) := by
  rw [flt, ha, hb]
  rfl

theorem fgt_of_notNaN {a b : F32} (ha : isNaN a = false) (hb : isNaN b = false) :
    fgt a b = decide (units b < units a) := by
  rw [fgt, ha, hb]
  rfl

theorem ffloor_of_finite {a : F32} (ha : isFinite a = true) : ffloor a = units a / (one : Int) := by
  rw [ffloor, if_pos ha]

/-- A finite number's magnitude is below infinity's place in the order. -/
theorem magUnits_lt_of_isFinite {a : F32} (ha : isFinite a = true) : magUnits a < magValue infMag := by
  rw [isFinite, decide_eq_true_eq] at ha
  exact magValue_strictMono ha

theorem isFinite_of_magUnits_lt {a : F32} (h : magUnits a < magValue infMag) : isFinite a = true := by
  rw [isFinite, decide_eq_true_eq]
  exact magValue_strictMono.lt_iff_lt.mp h

/-- A pattern is its sign and its magnitude. -/
theorem pack_isNeg_mag (x : F32) : pack (isNeg x) (mag x) = x := by
  have hx := x.isLt
  apply BitVec.eq_of_toNat_eq
  rw [pack, BitVec.toNat_ofNat, isNeg, BitVec.msb_eq_decide, mag]
  split <;> rename_i h <;> simp only [decide_eq_true_eq] at h <;> omega

end Sys2Proof.Laws
end

