-- ==== Sys2Proof/Laws/State.lean ====
section
/-! SUPPORT. One lemma per field per update of State and of Regs, so that no later proof unfolds a record update. -/

namespace Sys2Proof.Laws

open Sys2Proof.Machine

section State

variable (s : State) (r : Regs F32) (w : EventWord s.ciWidth)

@[simp] theorem withRegs_toRegs : (s.withRegs r).toRegs = r := rfl
@[simp] theorem withRegs_cfg : (s.withRegs r).cfg = s.cfg := rfl
@[simp] theorem withRegs_events : (s.withRegs r).events = s.events := rfl
@[simp] theorem withRegs_freeCount : (s.withRegs r).freeCount = s.freeCount := rfl
@[simp] theorem withRegs_self : s.withRegs s.toRegs = s := rfl
@[simp] theorem withRegs_withRegs (r' : Regs F32) : (s.withRegs r).withRegs r' = s.withRegs r' := rfl

@[simp] theorem drawn_toRegs : s.drawn.toRegs = s.toRegs := rfl
@[simp] theorem drawn_cfg : s.drawn.cfg = s.cfg := rfl
@[simp] theorem drawn_events : s.drawn.events = s.events := rfl
@[simp] theorem drawn_freeCount : s.drawn.freeCount = s.freeCount + 1 := rfl

@[simp] theorem taken_toRegs : s.taken.toRegs = s.toRegs := rfl
@[simp] theorem taken_cfg : s.taken.cfg = s.cfg := rfl
@[simp] theorem taken_events : s.taken.events = s.events.tail := rfl
@[simp] theorem taken_freeCount : s.taken.freeCount = s.freeCount := rfl

@[simp] theorem presentFirst_toRegs : (s.presentFirst w).toRegs = s.toRegs := rfl
@[simp] theorem presentFirst_cfg : (s.presentFirst w).cfg = s.cfg := rfl
@[simp] theorem presentFirst_events : (s.presentFirst w).events = w :: s.events := rfl
@[simp] theorem presentFirst_freeCount : (s.presentFirst w).freeCount = s.freeCount := rfl
@[simp] theorem presentFirst_currentWord : (s.presentFirst w).currentWord = w := rfl
@[simp] theorem presentFirst_taken : (s.presentFirst w).taken = s := rfl

@[simp] theorem present_toRegs : (s.present w).toRegs = s.toRegs := rfl
@[simp] theorem present_cfg : (s.present w).cfg = s.cfg := rfl
@[simp] theorem present_freeCount : (s.present w).freeCount = s.freeCount := rfl
@[simp] theorem present_events : (s.present w).events = s.events ++ [w] := rfl

end State

section Regs

variable {α : Type} (N : Numerics α) (p : Params α) (r : Regs α) (sc : SensorCode) (temp : α)

@[simp] theorem rstRegs_mode : (rstRegs N temp).mode = .idle := rfl
@[simp] theorem rstRegs_integ : (rstRegs N temp).integ = N.num 0 := rfl
@[simp] theorem rstRegs_prevErr : (rstRegs N temp).prevErr = N.num 0 := rfl
@[simp] theorem rstRegs_dutyNext : (rstRegs N temp).dutyNext = 0 := rfl
@[simp] theorem rstRegs_dutyActive : (rstRegs N temp).dutyActive = 0 := rfl
@[simp] theorem rstRegs_genEnable : (rstRegs N temp).genEnable = false := rfl
@[simp] theorem rstRegs_tempReg : (rstRegs N temp).tempReg = temp := rfl
@[simp] theorem rstRegs_atSetpoint : (rstRegs N temp).atSetpoint = false := rfl

@[simp] theorem reloadRegs_mode : (reloadRegs r).mode = r.mode := rfl
@[simp] theorem reloadRegs_integ : (reloadRegs r).integ = r.integ := rfl
@[simp] theorem reloadRegs_prevErr : (reloadRegs r).prevErr = r.prevErr := rfl
@[simp] theorem reloadRegs_dutyNext : (reloadRegs r).dutyNext = r.dutyNext := rfl
@[simp] theorem reloadRegs_dutyActive : (reloadRegs r).dutyActive = r.dutyNext := rfl
@[simp] theorem reloadRegs_genEnable : (reloadRegs r).genEnable = r.genEnable := rfl
@[simp] theorem reloadRegs_tempReg : (reloadRegs r).tempReg = r.tempReg := rfl
@[simp] theorem reloadRegs_atSetpoint : (reloadRegs r).atSetpoint = r.atSetpoint := rfl

@[simp] theorem idleRegs_mode : (idleRegs N r).mode = .idle := rfl
@[simp] theorem idleRegs_integ : (idleRegs N r).integ = N.num 0 := rfl
@[simp] theorem idleRegs_prevErr : (idleRegs N r).prevErr = N.num 0 := rfl
@[simp] theorem idleRegs_dutyNext : (idleRegs N r).dutyNext = 0 := rfl
@[simp] theorem idleRegs_dutyActive : (idleRegs N r).dutyActive = r.dutyActive := rfl
@[simp] theorem idleRegs_genEnable : (idleRegs N r).genEnable = false := rfl
@[simp] theorem idleRegs_tempReg : (idleRegs N r).tempReg = r.tempReg := rfl
@[simp] theorem idleRegs_atSetpoint : (idleRegs N r).atSetpoint = false := rfl

@[simp] theorem runningRegs_mode : (runningRegs N p sc r).mode = .running := rfl
@[simp] theorem runningRegs_integ :
    (runningRegs N p sc r).integ = (pidStep N p (errorOf N p sc) r.integ r.prevErr).integ := rfl
@[simp] theorem runningRegs_prevErr : (runningRegs N p sc r).prevErr = errorOf N p sc := rfl
@[simp] theorem runningRegs_dutyNext :
    (runningRegs N p sc r).dutyNext = (pidStep N p (errorOf N p sc) r.integ r.prevErr).duty := rfl
@[simp] theorem runningRegs_dutyActive : (runningRegs N p sc r).dutyActive = r.dutyActive := rfl
@[simp] theorem runningRegs_genEnable : (runningRegs N p sc r).genEnable = true := rfl
@[simp] theorem runningRegs_tempReg : (runningRegs N p sc r).tempReg = translate p sc := rfl
@[simp] theorem runningRegs_atSetpoint :
    (runningRegs N p sc r).atSetpoint = setpointFlag N p (errorOf N p sc) := rfl

variable (ci : ControlInput)

@[simp] theorem tickRegs_mode : (tickRegs N p ci sc r).mode = (sampleRegs N p ci sc r).mode := rfl
@[simp] theorem tickRegs_integ : (tickRegs N p ci sc r).integ = (sampleRegs N p ci sc r).integ := rfl
@[simp] theorem tickRegs_prevErr : (tickRegs N p ci sc r).prevErr = (sampleRegs N p ci sc r).prevErr := rfl
@[simp] theorem tickRegs_dutyNext : (tickRegs N p ci sc r).dutyNext = (sampleRegs N p ci sc r).dutyNext := rfl
@[simp] theorem tickRegs_dutyActive : (tickRegs N p ci sc r).dutyActive = r.dutyNext := rfl
@[simp] theorem tickRegs_genEnable : (tickRegs N p ci sc r).genEnable = (sampleRegs N p ci sc r).genEnable := rfl
@[simp] theorem tickRegs_tempReg : (tickRegs N p ci sc r).tempReg = (sampleRegs N p ci sc r).tempReg := rfl
@[simp] theorem tickRegs_atSetpoint :
    (tickRegs N p ci sc r).atSetpoint = (sampleRegs N p ci sc r).atSetpoint := rfl

end Regs

end Sys2Proof.Laws
end

