-- ==== Sys2Proof/Laws/Ops.lean ====
section
/-! SUPPORT. What each shared operation can do, said once. -/

namespace Sys2Proof.Laws

open Sys2Proof.Machine

variable {α : Type} (N : Numerics α) (p : Params α)

@[simp] theorem nextMode_zero : nextMode 0 = .idle := rfl

theorem nextMode_of_ne_zero {ci : ControlInput} (h : ci ≠ 0) : nextMode ci = .running := if_neg h

@[simp] theorem sampleRegs_zero (sc : SensorCode) (r : Regs α) : sampleRegs N p 0 sc r = idleRegs N r := rfl

theorem sampleRegs_of_ne_zero {ci : ControlInput} (h : ci ≠ 0) (sc : SensorCode) (r : Regs α) :
    sampleRegs N p ci sc r = runningRegs N p sc r := by
  rw [sampleRegs, nextMode_of_ne_zero h]

/-- A sampling event takes one of the two arms. -/
theorem sampleRegs_cases (ci : ControlInput) (sc : SensorCode) (r : Regs α) :
    (ci = 0 ∧ sampleRegs N p ci sc r = idleRegs N r) ∨
      (ci ≠ 0 ∧ sampleRegs N p ci sc r = runningRegs N p sc r) := by
  by_cases h : ci = 0
  · exact .inl ⟨h, by rw [h, sampleRegs_zero]⟩
  · exact .inr ⟨h, sampleRegs_of_ne_zero N p h sc r⟩

/-- A sampling event leaves the latch alone. -/
@[simp] theorem sampleRegs_dutyActive (ci : ControlInput) (sc : SensorCode) (r : Regs α) :
    (sampleRegs N p ci sc r).dutyActive = r.dutyActive := by
  obtain ⟨-, h⟩ | ⟨-, h⟩ := sampleRegs_cases N p ci sc r <;> rw [h] <;> rfl

@[simp] theorem runningFlag_eq (r : Regs α) : runningFlag r = decide (r.mode = .running) := by
  rw [runningFlag]
  cases r.mode <;> rfl

/-- How many free values an operation draws. -/
def drawsOf : Instr → Nat
  | .rst => 1
  | .nop => 0
  | .reload => 0
  | .sample _ _ => 0
  | .tick _ _ => 0

/-- What every operation does, said once: it has a next state, whose registers are the generic operation's at
F32, and nothing else of the state changes but the count of free values. -/
theorem exec_spec (i : Instr) (s : State) :
    exec i s = .next
      { s with
        toRegs := Exact.execRegs F32.numerics s.cfg.params (Config.freeTemp s.freeCount) i s.toRegs
        freeCount := s.freeCount + drawsOf i } := by
  cases i <;> rfl

/-- The inversion of a step: the word taken, the operation's registers, and the rest unchanged. -/
theorem step_spec {s t : State} (h : step s = .next t) :
    t = { s with
      toRegs := Exact.execRegs F32.numerics s.cfg.params (Config.freeTemp s.freeCount)
        (decode s.currentWord) s.toRegs
      events := s.events.tail
      freeCount := s.freeCount + drawsOf (decode s.currentWord) } :=
  (Host.Outcome.next.inj ((exec_spec (decode s.currentWord) s.taken).symm.trans h)).symm

/-- The five conditions a configuration has been checked for, one by one (00_scope R7, 41 R118). -/
theorem accepted_iff (q : Params F32) :
    acceptedParams q = true ↔
      limitsOk q = true ∧ periodOk F32.numerics q = true ∧ reciprocalOk F32.numerics q = true ∧
        finiteOk F32.numerics q = true ∧ monotoneOk F32.numerics q = true ∧
        thresholdOk F32.numerics q = true ∧ lawRangeOk q = true ∧ factorRangeOk q = true := by
  simp only [acceptedParams, wellFormedParams, Bool.and_eq_true, and_assoc]

/-- The limits of a configuration are in order and fit a byte (00_scope R7 (a)). -/
theorem limits_of_accepted (c : Configuration) :
    c.params.dutyMin ≤ c.params.dutyMax ∧ c.params.dutyMax ≤ 255 := by
  have h := ((accepted_iff c.params).mp c.accepted).1
  simpa only [limitsOk, Bool.and_eq_true, decide_eq_true_eq] using h

/-- A floor taken as a duty is 0 or in the band. -/
theorem dutyOfFloor_legal (hlim : p.dutyMax ≤ 255) (k : Int) : Safety.LegalDuty p (dutyOfFloor p k) := by
  rw [dutyOfFloor]
  split
  · rename_i h
    right
    have hk : ((BitVec.ofInt 8 k).toNat : Int) = k := by
      rw [BitVec.toNat_ofInt]
      omega
    omega
  · exact .inl rfl

end Sys2Proof.Laws
end

