-- ==== Sys2Proof/Laws/Params.lean ====
section
/-! SUPPORT. What an accepted configuration gives: finite constants, an ordered table, and the bound E of 41 R118
on every error. -/

namespace Sys2Proof.Laws

open Sys2Proof.Machine

/-- The Num constants of a configuration are finite (00_scope R7 (d)). -/
theorem constants_finite (c : Configuration) :
    ∀ x ∈ [c.params.period, c.params.invP, c.params.kp, c.params.ki, c.params.kd, c.params.setPoint,
      c.params.threshold], F32.isFinite x = true := by
  have h := ((accepted_iff c.params).mp c.accepted).2.2.2.1
  rw [finiteOk, Bool.and_eq_true, Bool.and_eq_true] at h
  exact List.all_eq_true.mp h.1.1

theorem translate_mem (p : Params F32) (sc : SensorCode) : translate p sc ∈ p.cal.entries :=
  List.getElem_mem _

/-- Every temperature of the table is finite (00_scope R7 (d)). -/
theorem translate_finite (c : Configuration) (sc : SensorCode) :
    F32.isFinite (translate c.params sc) = true := by
  have h := ((accepted_iff c.params).mp c.accepted).2.2.2.1
  rw [finiteOk, Bool.and_eq_true, Bool.and_eq_true] at h
  exact List.all_eq_true.mp h.1.2 _ (translate_mem c.params sc)

theorem le_foldl_max (l : List Nat) (a : Nat) : a ≤ l.foldl max a ∧ ∀ x ∈ l, x ≤ l.foldl max a := by
  induction l generalizing a with
  | nil => exact ⟨le_refl a, fun x hx => absurd hx List.not_mem_nil⟩
  | cons y l ih =>
    obtain ⟨h1, h2⟩ := ih (max a y)
    refine ⟨(le_max_left a y).trans h1, fun x hx => ?_⟩
    rcases List.mem_cons.mp hx with rfl | hx
    · exact (le_max_right a x).trans h1
    · exact h2 x hx

/-- E bounds |SetPoint| + |CAL[c]|, and with it the exact error of every code (41 R118). -/
theorem setPoint_add_translate_le (p : Params F32) (sc : SensorCode) :
    F32.magUnits p.setPoint + F32.magUnits (translate p sc) ≤ errorBound p :=
  Nat.add_le_add_left ((le_foldl_max _ 0).2 _ (List.mem_map_of_mem (translate_mem p sc))) _

/-- Neighbouring entries of a non-decreasing list, by index. -/
theorem nonDecreasing_getElem {α : Type} (N : Numerics α) :
    ∀ (l : List α), nonDecreasing N l = true → ∀ (k : Nat) (h : k + 1 < l.length),
      N.flt l[k + 1] l[k] = false
  | [], _, k, h => absurd h (Nat.not_lt_zero _)
  | [_], _, k, h => absurd h (by simp)
  | a :: b :: rest, hl, k, h => by
    rw [nonDecreasing, Bool.and_eq_true, Bool.not_eq_true'] at hl
    cases k with
    | zero => exact hl.1
    | succ k => exact nonDecreasing_getElem N (b :: rest) hl.2 k (by simpa using h)

end Sys2Proof.Laws
end

