-- ==== Sys2Proof/Laws/PerInstr.lean ====
section
/-! SUPPORT. The per-instruction family RowMatch: the encoding of an operation, at the table's width, selects the table's row of that
operation and no other (spec 30_encoding R73). -/

namespace Sys2Proof.Laws.RowMatch

/-- Of the rows of the opcode table, the encoding of `i` selects exactly those with the name of `i`. -/
def Statement (i : Instr) : Prop :=
  ∀ row ∈ opcodeTable, (row.selects (encode 2 i) = true ↔ row.mnemonic = i.mnemonic)

theorem rst : Statement .rst := by
  unfold Statement
  decide

theorem nop : Statement .nop := by
  unfold Statement
  decide

theorem reload : Statement .reload := by
  unfold Statement
  decide

/-- The operand fields do not reach the bits a row looks at. -/
theorem sampling_word (reload : Bool) (ci : BitVec 2) (sc : SensorCode) :
    ({ rst := false, sample := true, reload := reload, ci := ci, sc := sc } : Inputs 2).word &&& 0x1C00#13 =
      (if reload then 0x0C00#13 else 0x0800#13) ∧
    ({ rst := false, sample := true, reload := reload, ci := ci, sc := sc } : Inputs 2).word &&& 0x1000#13 =
      0#13 := by
  revert reload ci sc
  decide +kernel

theorem sample (ci : ControlInput) (sc : SensorCode) : Statement (.sample ci sc) := by
  obtain ⟨h1, h2⟩ := sampling_word false (BitVec.ofNat 2 ci) sc
  simp only [Statement, opcodeTable, List.forall_mem_cons, OpRow.selects, encode, canonicalInputs, Instr.mnemonic,
    h1, h2]
  refine ⟨?_, ?_, ?_, ?_, ?_, fun _ h => absurd h List.not_mem_nil⟩ <;> decide

theorem tick (ci : ControlInput) (sc : SensorCode) : Statement (.tick ci sc) := by
  obtain ⟨h1, h2⟩ := sampling_word true (BitVec.ofNat 2 ci) sc
  simp only [Statement, opcodeTable, List.forall_mem_cons, OpRow.selects, encode, canonicalInputs, Instr.mnemonic,
    h1, h2]
  refine ⟨?_, ?_, ?_, ?_, ?_, fun _ h => absurd h List.not_mem_nil⟩ <;> decide

end Sys2Proof.Laws.RowMatch
end

