-- ==== Sys2Proof/Laws/Range.lean ====
section
/-! SUPPORT. How large a result of F32 can be, primitive by primitive: the exact magnitude, 2^-24 of it, and half
the least subnormal. The chain of such bounds is what 41 R118 speaks of. -/

namespace Sys2Proof.Laws

open Sys2Proof.F32

/-- The magnitude of a number, as a rational. -/
def magVal (x : F32) : ℚ := (magUnits x : ℚ) / 2 ^ 149

theorem magVal_nonneg (x : F32) : 0 ≤ magVal x := by
  unfold magVal
  positivity

theorem magVal_neg (x : F32) : magVal (F32.neg x) = magVal x := by
  rw [magVal, magUnits, mag_neg, ← magUnits, ← magVal]

theorem magValue_roundMag_le_rat (n : Nat) {d : Nat} (hd : 0 < d) :
    (magValue (roundMag n d) : ℚ) ≤ (n : ℚ) / d * (1 + 1 / 2 ^ 24) + 1 / 2 := by
  have h : (magValue (roundMag n d) : ℚ) * d * 2 ^ 24 ≤ n * (2 ^ 24 + 1) + d * 2 ^ 23 := by
    exact_mod_cast magValue_roundMag_le n hd
  have hd' : (0 : ℚ) < d := by exact_mod_cast hd
  have hr : (n : ℚ) / d * (1 + 1 / 2 ^ 24) + 1 / 2 = (n * (2 ^ 24 + 1) + d * 2 ^ 23) / (d * 2 ^ 24) := by
    field_simp
  rw [hr, le_div_iff₀ (by positivity)]
  linarith

theorem magVal_fadd_le {a b : F32} (ha : isFinite a = true) (hb : isFinite b = true) :
    magVal (fadd a b) ≤ (magVal a + magVal b) * (1 + 1 / 2 ^ 24) + 1 / 2 ^ 150 := by
  have h := magValue_roundMag_le_rat (units a + units b).natAbs Nat.one_pos
  have hsum : ((units a + units b).natAbs : ℚ) ≤ magUnits a + magUnits b := by
    rw [← natAbs_units a, ← natAbs_units b]
    exact_mod_cast Int.natAbs_add_le _ _
  rw [fadd_of_finite ha hb, magVal, magUnits_addFinite, div_le_iff₀ (by positivity)]
  have hr : ((magVal a + magVal b) * (1 + 1 / 2 ^ 24) + 1 / 2 ^ 150) * 2 ^ 149 =
      (magUnits a + magUnits b : ℚ) * (1 + 1 / 2 ^ 24) + 1 / 2 := by
    unfold magVal
    ring
  rw [hr]
  simp only [Nat.cast_one, div_one] at h
  nlinarith

theorem magVal_fsub_le {a b : F32} (ha : isFinite a = true) (hb : isFinite b = true) :
    magVal (fsub a b) ≤ (magVal a + magVal b) * (1 + 1 / 2 ^ 24) + 1 / 2 ^ 150 := by
  have hb' : isFinite (F32.neg b) = true := by rwa [isFinite_neg]
  rw [fsub_of_finite ha hb, ← fadd_of_finite ha hb', ← magVal_neg b]
  exact magVal_fadd_le ha hb'

theorem magVal_fmul_le {a b : F32} (ha : isFinite a = true) (hb : isFinite b = true) :
    magVal (fmul a b) ≤ magVal a * magVal b * (1 + 1 / 2 ^ 24) + 1 / 2 ^ 150 := by
  have h := magValue_roundMag_le_rat (magUnits a * magUnits b) one_unit_pos
  have hone : ((one : Nat) : ℚ) = 2 ^ 149 := by
    rw [one]
    norm_cast
  rw [hone, Nat.cast_mul] at h
  rw [fmul_of_finite ha hb, magVal, magUnits_rounded, div_le_iff₀ (by positivity)]
  refine h.trans (le_of_eq ?_)
  unfold magVal
  ring

theorem magVal_fhalf_le {a : F32} (ha : isFinite a = true) :
    magVal (fhalf a) ≤ magVal a / 2 * (1 + 1 / 2 ^ 24) + 1 / 2 ^ 150 := by
  have h := magValue_roundMag_le_rat (magUnits a) Nat.two_pos
  rw [fhalf_of_finite ha, magVal, magUnits_rounded, div_le_iff₀ (by positivity)]
  refine h.trans (le_of_eq ?_)
  unfold magVal
  push_cast
  ring

theorem magValue_infMag : magValue infMag = 2 ^ 277 := by decide +kernel

/-- A result whose magnitude is below 2^128 is a finite number. -/
theorem isFinite_of_magVal_lt {x : F32} (h : magVal x < 2 ^ 128) : isFinite x = true := by
  apply isFinite_of_magUnits_lt
  rw [magValue_infMag]
  rw [magVal, div_lt_iff₀ (by positivity)] at h
  have hp : (2 : ℚ) ^ 128 * 2 ^ 149 = ((2 ^ 277 : Nat) : ℚ) := by
    rw [Nat.cast_pow, Nat.cast_ofNat, ← pow_add]
  rw [hp] at h
  exact_mod_cast h

end Sys2Proof.Laws
end

