-- ==== Sys2Proof/Tests/Slice0.lean ====
section
/-! SUPPORT. The model's own tests. Expected values are those of spec/95_test_vectors (the vector is named at each),
or of the rule named. -/

namespace Sys2Proof.Tests

open Sys2Proof.Machine Sys2Proof.Safety

/-! ## Helpers -/

/-- The state of vectors M7 to M9 of 95 section 7, with a latch value and waiting events given. -/
def heating (dutyNext dutyActive : Byte) (integ : F32) (events : List (EventWord 2)) : State :=
  { State.reset with
    mode := .running, genEnable := true, dutyNext := dutyNext, dutyActive := dutyActive, integ := integ,
    prevErr := 0x40F00000#32, tempReg := 0x41F00000#32, events := events }

/-- Vector M8's state before: (1, 1, 82, 0, 0, 7.86432, 7.5, 30). -/
def firstPeriod : State := heating 82 0 0x40FBA882#32 []

/-- A question asked of the next state, false where there is none. -/
def nextHas (o : Host.Outcome State Fault Refusal) (q : State → Bool) : Bool :=
  match o with
  | .next t => q t
  | .fault _ => false
  | .refused _ => false

/-- The documented parameters over the fixture table. -/
def documented : Params F32 := documentedConfiguration.params

/-! ## Ill-formed terms, one for each check -/

theorem test_sample_ci_out_of_range : (Instr.sample 4 0).wellFormed 2 = false := by decide
theorem test_tick_ci_out_of_range : (Instr.tick 4 0).wellFormed 2 = false := by decide
theorem test_tick_ci_in_range : (Instr.tick 3 255).wellFormed 2 = true := by decide
/-- 93 U3: a wider control input. -/
theorem test_tick_ci_wider : (Instr.tick 4 0).wellFormed 3 = true := by decide

/-- R7 (a). -/
theorem test_limits_out_of_order : limitsOk { documented with dutyMin := 201 } = false := by decide
theorem test_limits_too_large : limitsOk { documented with dutyMax := 256 } = false := by decide
/-- R7 (b). -/
theorem test_period_zero : periodOk F32.numerics { documented with periodLit := 0 } = false := by decide +kernel
/-- R7 (c). -/
theorem test_reciprocal_wrong :
    reciprocalOk F32.numerics { documented with invP := 0x3E742401#32 } = false := by decide +kernel
/-- R7 (d): an infinite gain. -/
theorem test_infinite_gain : finiteOk F32.numerics { documented with kp := 0x7F800000#32 } = false := by
  decide +kernel
/-- R7 (e): a table that falls somewhere; equal neighbours are allowed (90_conflicts C3). -/
theorem test_falling_table : nonDecreasing F32.numerics [F32.num 1, F32.num 1, F32.num 0] = false := by
  decide +kernel
/-- R7 (f). -/
theorem test_negative_threshold :
    thresholdOk F32.numerics { documented with threshold := 0xBF800000#32 } = false := by decide +kernel
/-- 41 R118: Kp = 2^127 with E = 101.25. -/
theorem test_range_too_large : lawRangeOk { documented with kp := 0x7F000000#32 } = false := by decide +kernel
/-- Log 10: Ki = 2^127 times P overflows. -/
theorem test_factor_too_large : factorRangeOk { documented with ki := 0x7F000000#32 } = false := by decide +kernel

/-! ## Words written out bit by bit (R71, R73; 95 section 3) -/

theorem test_decode_rst : decode (ciWidth := 2) 0b1000000000000#13 = .rst := by decide
/-- `rst` wins, both events lost. -/
theorem test_decode_rst_wins : decode (ciWidth := 2) 0b1110101111000#13 = .rst := by decide
theorem test_decode_nop_operands : decode (ciWidth := 2) 0b0001111111111#13 = .nop := by decide
theorem test_decode_reload_operands : decode (ciWidth := 2) 0b0011110100101#13 = .reload := by decide
theorem test_decode_sample : decode (ciWidth := 2) 0b0100101111000#13 = .sample 1 120 := by decide
theorem test_decode_tick : decode (ciWidth := 2) 0b0111010000010#13 = .tick 2 130 := by decide
theorem test_encode_tick : encode 2 (.tick 1 120) = 0x0D78#13 := by decide
theorem test_decodeTableWord_tick : decodeTableWord 16 0x0FFF = some (.tick 3 255) := by decide
theorem test_decodeTableWord_refuses : decodeTableWord 16 0x2000 = none := by decide
/-- A floating `reload` wire is refused (R77). -/
theorem test_undefined_reload :
    (⟨.low, .high, .undefined, #v[.low, .low], #v[.low, .low, .low, .low, .low, .low, .low, .low]⟩ : Pins 2).read =
      .error (.undefinedInput "reload") := by decide

/-! ## One step of each operation -/

/-- M11: `RST` with both strobes (0x1D78). -/
theorem test_rst_m11 :
    nextHas (step ((heating 98 82 0x41BCBE62#32 []).withFetchWord 16 0x1D78)) (fun t =>
      t.mode == .idle && !t.genEnable && t.dutyNext == 0 && t.dutyActive == 0 && t.integ == 0#32 &&
        t.prevErr == 0#32) = true := by decide +kernel

/-- M7: `NOP`. -/
theorem test_nop_m7 :
    nextHas (step (firstPeriod.withFetchWord 16 0x0000)) (fun t => t.toRegs == firstPeriod.toRegs) = true := by
  decide +kernel

/-- M8: `RELOAD`. -/
theorem test_reload_m8 :
    nextHas (step (firstPeriod.withFetchWord 16 0x0400)) (fun t => t.dutyActive == 82 && t.dutyNext == 82) =
      true := by decide +kernel

/-- M9: `SAMPLE 1, 120` leaves the latch alone. -/
theorem test_sample_m9 :
    nextHas (step ((heating 82 82 0x40FBA882#32 []).withFetchWord 16 0x0978)) (fun t =>
      t.dutyNext == 98 && t.dutyActive == 82 && t.integ == 0x41BCBE62#32 && t.prevErr == 0x40F00000#32 &&
        t.tempReg == 0x41F00000#32) = true := by decide +kernel

/-- M10: `SAMPLE 0, 0`. -/
theorem test_sample_m10 :
    nextHas (step ((heating 98 82 0x41BCBE62#32 []).withFetchWord 16 0x0800)) (fun t =>
      t.mode == .idle && !t.genEnable && t.dutyNext == 0 && t.dutyActive == 82 && t.integ == 0#32 &&
        t.tempReg == 0x41F00000#32) = true := by decide +kernel

/-- P3 line 2, from reset: `TICK 1, 148` at the set point's edge: integral raised to 6, at-setpoint on. -/
theorem test_tick_p3 :
    nextHas (step (State.reset.withFetchWord 16 0x0D94)) (fun t =>
      t.mode == .running && t.genEnable && t.dutyNext == 11 && t.dutyActive == 0 && t.atSetpoint &&
        t.integ == 0x40C00000#32 && t.prevErr == 0x3F000000#32) = true := by decide +kernel

/-- P2 line 4: `TICK 0, 124` puts the stale duty into the latch behind a closed gate. -/
theorem test_tick_p2_stale :
    nextHas (step ((heating 87 82 0x41B45AE6#32 []).withFetchWord 16 0x0C7C)) (fun t =>
      t.mode == .idle && t.dutyActive == 87 && t.dutyNext == 0 && heaterOn256 (outputs t.toRegs) == 0) = true := by
  decide +kernel

/-! ## The shared operations -/

/-- 95 section 2: the constants under F32. -/
theorem test_f32_constants :
    documented.period = 0x408637BD#32 ∧ documented.invP = 0x3E742400#32 ∧
      F32.fmul documented.ki documented.period = 0x400637BD#32 ∧
      F32.fmul documented.period documented.invP = 0x3F800000#32 := by decide +kernel

/-- Vectors V9 and, with Kd = 2, V10. -/
theorem test_pid_v9_v10 :
    pidStep F32.numerics documented 0xC0000000#32 0x43480000#32 0x40F00000#32 =
        ⟨180, 0x43480000#32, 0xC0000000#32⟩ ∧
      pidStep F32.numerics { documented with kd := 0x40000000#32 } 0x40A00000#32 0x42480000#32 0x40F00000#32 =
        ⟨111, 0x427C6DC6#32, 0x40A00000#32⟩ := by decide +kernel

/-- 95 section 6, the direct vectors on the comparison. -/
theorem test_setpoint_strict :
    setpointFlag F32.numerics documented 0x3F7FFFFF#32 = true ∧
      setpointFlag F32.numerics documented 0x3F800000#32 = false ∧
      setpointFlag F32.numerics documented 0xBF7FFFFF#32 = true ∧
      setpointFlag F32.numerics documented 0x80000000#32 = true := by decide +kernel

/-- Vector V1 under EXACT. -/
theorem test_exact_v1 :
    pidStep Exact.numerics (documentedParams Exact.numerics (calTest Exact.numerics)) (15 / 2) 0 0 =
      ⟨82, 24576 / 3125, 15 / 2⟩ := by decide +kernel

/-- R79: a line with a hexadecimal operand and a comment. -/
theorem test_parse_line :
    parseLine 2 "TICK 1, 0x78 # heat".toList = .ok (some (.op (.tick 1 120))) := by decide +kernel

theorem test_parse_out_of_range : parseLine 2 "TICK 4, 0".toList = .error .operandOutOfRange := by decide +kernel

/-! ## Witnesses: what meets the hypotheses of each statement -/

/-- DecodeOfEncodeIsTheOperation, at both ends of the operand ranges. -/
theorem witness_wellFormed_instr :
    (Instr.tick 3 255).wellFormed 2 = true ∧ (Instr.sample 0 0).wellFormed 2 = true ∧
      (Instr.tick 7 255).wellFormed 3 = true ∧ (Instr.sample 0 255).wellFormed 0 = true := by decide

/-- OperandsAreTheFieldsAsTheyStand: the last word of each sampling row, and two nonzero levels. -/
theorem witness_operand_words :
    (0x0BFF#13).toNat / 1024 = 2 ∧ (0x0FFF#13).toNat / 1024 = 3 ∧ (1 : ControlInput) ≠ 0 ∧
      (3 : ControlInput) ≠ 0 := by decide

/-- IgnoredFieldsHaveNoEffect: the first and the last word of each of the three rows. -/
theorem witness_ignored_fields :
    4096 ≤ (0x1000#13).toNat ∧ 4096 ≤ (0x1FFF#13).toNat ∧ (0x0000#13).toNat / 1024 = 0 ∧
      (0x03FF#13).toNat / 1024 = 0 ∧ (0x0400#13).toNat / 1024 = 1 ∧ (0x07FF#13).toNat / 1024 = 1 := by decide

/-- OnlyThirteenBitNumbersAreEventWords, on both sides of the bound. -/
theorem witness_event_word_numbers :
    (0x1FFF < 2 ^ 16 ∧ 0x1FFF < 2 ^ 13) ∧ (0x2000 < 2 ^ 16 ∧ ¬ 0x2000 < 2 ^ 13) := by decide

/-- The wires of `SAMPLE 2, 129`, or with one of them undriven. -/
def wires (last : Level) : Pins 2 :=
  ⟨.low, .high, .low, #v[.high, .low], #v[.high, .low, .low, .low, .low, .low, .low, last]⟩

/-- OnlyDefiniteLevelsAreTaken: wires that are read, and wires that are not. -/
theorem witness_wires :
    (wires .high).read = .ok 0x0A81#13 ∧ (wires .undefined).read = .error (.undefinedInput "sc") := by decide

/-- StepRunsTheDecodedOperation: a waiting word, none, the greatest word and the number after it. -/
theorem witness_step :
    (heating 82 0 0 [0x0D78#13, 0x0000#13]).events = 0x0D78#13 :: [0x0000#13] ∧ firstPeriod.events = [] ∧
      0x1FFF < 2 ^ 16 ∧ 0x2000 < 2 ^ 16 := by
  exact ⟨rfl, rfl, by decide, by decide⟩

/-- RstEstablishesTheInitialState: a word with `rst` and both strobes. -/
theorem witness_rst_word : (0x1D78#13).getLsbD 12 = true := by decide

/-- NopsKeepTheState: two words that decode to `NOP`, and the word of its row's end. -/
theorem witness_nop_words :
    (∀ w ∈ ([0x0000#13, 0x03FF#13] : List (EventWord 2)), decode w = .nop) ∧ (0x03FF#13).toNat / 1024 = 0 := by
  refine ⟨List.forall_mem_cons.mpr ⟨by decide, List.forall_mem_singleton.mpr ?_⟩, by decide⟩
  decide

/-- ReloadCopiesTheHandoffRegister: a reload and a second one. -/
theorem witness_two_reloads :
    (0x07FF#13).toNat / 1024 = 1 ∧ ∃ t u, exec .reload firstPeriod = .next t ∧ exec .reload t = .next u :=
  ⟨by decide, _, _, rfl, rfl⟩

/-- SamplePerformsTheSamplingEvent, AtSetpointIsTheCurrentErrorAlone and TempRegIsAWriteOnlyTrace have both arms. -/
theorem witness_both_arms : (0 : ControlInput) = 0 ∧ (1 : ControlInput) ≠ 0 := by decide

/-- PidStepIsTheSixSteps: the output of vector V1 is no NaN. -/
theorem witness_output_notNaN :
    F32.isNaN (pidOutput F32.numerics documented 0x40F00000#32 0x40FBA882#32 0x3FE4E1C0#32) = false := by
  decide +kernel

/-- IntegralLiesInTheOutputBand: vector V9, whose accumulator is clamped. -/
theorem witness_integral_notNaN :
    F32.isNaN (pidIntegral F32.numerics documented 0xC0000000#32 0x43480000#32 0x40F00000#32) = false := by
  decide +kernel

/-- FloorBranchIsExact: outputs at the lower limit, inside the band and at the upper limit. -/
theorem witness_floor_branch :
    [0x40C00000#32, 0x42A5BA88#32, 0x43480000#32].all (fun out => !F32.isNaN out &&
      !F32.fgt out (F32.num documented.dutyMax) && !F32.flt out (F32.num documented.dutyMin)) = true := by
  decide +kernel

/-- The two EXACT statements: the documented configuration is well-formed. -/
theorem witness_exact_wellFormed :
    wellFormedParams Exact.numerics (documentedParams Exact.numerics (calTest Exact.numerics)) = true := by
  decide +kernel

/-- The second fixture of 95 section 2, with equal neighbours, is accepted too. -/
theorem witness_flat_table :
    acceptedParams (documentedParams F32.numerics (calFlat F32.numerics)) = true := by decide +kernel

/-- Idle with a cleared history and a stale latch: M6's state before. -/
def stale : State := { State.reset with dutyActive := 87, tempReg := 0x41F80000#32 }

/-- RestartUsesAClearedHistory and GateOverridesTheLatch, their Idle clauses. -/
theorem witness_idle_cleared :
    stale.mode = .idle ∧ IdleCleared F32.numerics stale.toRegs ∧ (3 : ControlInput) ≠ 0 :=
  ⟨rfl, fun _ => ⟨rfl, rfl, rfl, rfl⟩, by decide⟩

/-- GateOverridesTheLatch: a closed gate before a nonzero latch. -/
theorem witness_closed_gate : stale.genEnable = false ∧ stale.dutyActive = 87 := ⟨rfl, rfl⟩

/-- TranslatorIsMonotone: the two ends of the table, and one code with itself. -/
theorem witness_codes : (0#8).toNat ≤ (255#8).toNat ∧ (150#8).toNat ≤ (150#8).toNat := by decide

/-- DutyTakesEffectOnePeriodLater: a `NOP` between two `TICK`s, and between `RST` and a `TICK`. -/
theorem witness_two_ticks :
    (∀ v ∈ ([0x0000#13] : List (EventWord 2)), decode v = .nop) ∧ decode (ciWidth := 2) 0x0D7C#13 = .tick 1 124 ∧
      (∃ t, exec (.tick 1 120) { stale with events := [0x0000#13] ++ 0x0D7C#13 :: [] } = .next t) ∧
      ∃ t, exec .rst { stale with events := [0x0000#13] ++ 0x0D7C#13 :: [] } = .next t :=
  ⟨List.forall_mem_singleton.mpr (by decide), by decide, ⟨_, rfl⟩, ⟨_, rfl⟩⟩

/-- StepKeepsTheSafeRegisters: the first heating period is safe and its step goes on. -/
theorem witness_safe :
    SafeRegs F32.numerics firstPeriod.cfg.params firstPeriod.toRegs ∧ ∃ t, step firstPeriod = .next t := by
  refine ⟨⟨rfl, ?_, ?_, .inl rfl⟩, _, rfl⟩
  · intro h
    exact absurd h (by decide)
  · exact .inr ⟨by decide +kernel, by decide +kernel⟩

/-- The temperature code 120 of the fixture gives the error 7.5. -/
theorem error_of_120 : errorOf F32.numerics firstPeriod.cfg.params 120 = 0x40F00000#32 := by decide +kernel

theorem integ_in_band : InBand F32.numerics firstPeriod.cfg.params 0x40FBA882#32 := by
  refine ⟨?_, ?_, ?_⟩ <;> decide +kernel

/-- StepKeepsTheIntegralBounded: the first heating period. -/
theorem witness_bounded :
    IntegBounded F32.numerics firstPeriod.cfg.params firstPeriod.toRegs ∧ ∃ t, step firstPeriod = .next t :=
  ⟨⟨.inr integ_in_band, fun _ => integ_in_band, .inr ⟨120, error_of_120.symm⟩⟩, _, rfl⟩

/-- NoIntermediateOverflows: both clauses of each hypothesis, the registers of the first heating period and 0. -/
theorem witness_no_overflow :
    (InBand F32.numerics firstPeriod.cfg.params 0x40FBA882#32 ∧
        ErrorOfSomeCode F32.numerics firstPeriod.cfg.params 0x40F00000#32) ∧
      (F32.num 0 = F32.num 0 ∧ ErrorOfSomeCode F32.numerics firstPeriod.cfg.params (F32.num 0)) :=
  ⟨⟨integ_in_band, .inr ⟨120, error_of_120.symm⟩⟩, rfl, .inl rfl⟩

/-- HeaterIsOffInIdle: a `TICK 0, 0` out of the first heating period ends in Idle. -/
theorem witness_step_into_idle :
    GateIsMode firstPeriod.toRegs ∧ ∃ t, step (firstPeriod.presentFirst 0x0C00#13) = .next t ∧ t.mode = .idle :=
  ⟨rfl, _, rfl, rfl⟩

/-- StepKeepsTheConfiguration. -/
theorem witness_step_goes_on : ∃ t, step stale = .next t := ⟨_, rfl⟩

/-- Another table of candidate set points in the documented configuration. -/
def otherSetPoints : Configuration where
  params := { documentedConfiguration.params with setPointTable := #v[0x42160000#32, 0#32, 0#32, 0#32] }
  accepted := by decide +kernel

/-- SetPointTableIsNeverRead: two configurations that differ in that table alone. -/
theorem witness_set_point_tables :
    { otherSetPoints.params with setPointTable := stale.cfg.params.setPointTable } = stale.cfg.params ∧
      otherSetPoints.params.setPointTable ≠ stale.cfg.params.setPointTable :=
  ⟨rfl, by decide +kernel⟩

/-- OnlyWellFormedConfigurationsRun: an ill-formed configuration, and the last pair of neighbours. -/
theorem witness_ill_formed :
    wellFormedParams F32.numerics { documented with dutyMin := 201 } = false ∧ 254 < 255 := by decide

/-- PrimitivesRoundToNearestEven: 1 and 2^-24 (a tie) against 1 + 2^-23. -/
theorem witness_tie :
    F32.isFinite 0x3F800000#32 = true ∧ F32.isFinite 0x33800000#32 = true ∧ F32.isFinite 0x3F800001#32 = true ∧
      F32.fadd 0x3F800000#32 0x33800000#32 = 0x3F800000#32 := by decide +kernel

/-- SumOverflowsToInfinity: the greatest finite number and half its last place, and a little less. -/
theorem witness_overflow :
    F32.isFinite 0x7F7FFFFF#32 = true ∧ F32.isFinite 0x73000000#32 = true ∧
      F32.fadd 0x7F7FFFFF#32 0x73000000#32 = 0x7F800000#32 ∧
      F32.fadd 0x7F7FFFFF#32 0x72FFFFFF#32 = 0x7F7FFFFF#32 := by decide +kernel

/-- PseudoOperationsExpandAsListed: the greatest level of the event word. -/
theorem witness_level : (3 : ControlInput) < 2 ^ stale.ciWidth := by decide

/-- The documented configuration with a control input of three bits (93 U3). -/
def widerInput : Configuration where
  params := { documentedConfiguration.params with ciWidth := 3 }
  accepted := by decide +kernel

/-- An instance with three bits of control input runs: `TICK 4, 148`, the level a width of 2 does not have. -/
theorem test_wider_instance :
    nextHas (step (({ State.reset with cfg := widerInput, events := [] } : State).presentFirst
      (encode 3 (.tick 4 148)))) (fun t => t.mode == .running && t.dutyNext == 11) = true := by decide +kernel

/-- AnyControlInputWidthActsAsTheDefault: `TICK 4, 148` at width 3 beside `TICK 1, 148`, and control input 0. -/
theorem witness_wider_words :
    (0x1C94#14).toNat / 2 ^ 11 = (0x0D94#13).toNat / 2 ^ 10 ∧
      (0x1C94#14).toNat % 2 ^ 8 = (0x0D94#13).toNat % 2 ^ 8 ∧
      (0x1C94#14).toNat / 2 ^ 8 % 2 ^ 3 = 4 ∧ (0x0D94#13).toNat / 2 ^ 8 % 2 ^ 2 = 1 ∧
      (0x1894#14).toNat / 2 ^ 8 % 2 ^ 3 = 0 ∧ (0x0C94#13).toNat / 2 ^ 8 % 2 ^ 2 = 0 := by decide

end Sys2Proof.Tests
end

section
/-! The step: the word it takes, and what it keeps (O8, O38). -/

namespace Sys2Proof.Proofs

open Sys2Proof.Machine Sys2Proof.Laws

/-- The word of idle inputs is the canonical word of `NOP` at every width (30 R75). -/
theorem decode_zero (ciWidth : Nat) : decode (0 : EventWord ciWidth) = .nop := by
  simp [decode, rstBit, sampleBit, reloadBit]

theorem currentWord_of_events_cons {s : State} {w : EventWord s.ciWidth} {rest : List (EventWord s.ciWidth)}
    (h : s.events = w :: rest) : s.currentWord = w := by
  rw [State.currentWord, h, List.headD_cons]

theorem taken_of_events_cons {s : State} {w : EventWord s.ciWidth} {rest : List (EventWord s.ciWidth)}
    (h : s.events = w :: rest) : s.taken = { s with events := rest } := by
  rw [State.taken, h, List.tail_cons]

theorem currentWord_of_events_nil {s : State} (h : s.events = []) : s.currentWord = 0 := by
  rw [State.currentWord, h, List.headD_nil]

theorem taken_of_events_nil {s : State} (h : s.events = []) : s.taken = s := by
  rw [State.taken, h, List.tail_nil, ← h]

/-- The next step takes a word presented ahead of the others and leaves the others waiting. -/
theorem step_presentFirst (s : State) (w : EventWord s.ciWidth) : step (s.presentFirst w) = exec (decode w) s := rfl

/-- Settles O8: the queue holds a word, or none, or the one that withFetchWord placed first. -/
theorem stepRunsTheDecodedOperation : Obligations.StepRunsTheDecodedOperation := by
  unfold Obligations.StepRunsTheDecodedOperation
  refine ⟨fun s w rest h => ?waiting, fun s h => ?idle, fun s nbits w hw => ?placed⟩
  case waiting => rw [step, currentWord_of_events_cons h, taken_of_events_cons h]
  case idle => rw [step, currentWord_of_events_nil h, taken_of_events_nil h, decode_zero]
  case placed => rw [State.withFetchWord, Nat.mod_eq_of_lt hw, step_presentFirst]

/-- A step writes registers, the queue and the draw count, and never the configuration (00_scope R5). -/
theorem step_cfg {s t : State} (h : step s = .next t) : t.cfg = s.cfg := by
  rw [step_spec h]

/-- Settles O38: the table is part of the configuration that `step_cfg` says is kept. -/
theorem stepKeepsTheConfiguration : Obligations.StepKeepsTheConfiguration := by
  unfold Obligations.StepKeepsTheConfiguration
  intro s t h
  exact ⟨step_cfg h, fun sc => by rw [step_cfg h]⟩

end Sys2Proof.Proofs
end

section
/-! The control law over the rationals (O21). -/

namespace Sys2Proof.Proofs

open Sys2Proof.Machine Sys2Proof.Laws

theorem limits_of_exact_wellFormed {p : Params Rat} (h : wellFormedParams Exact.numerics p = true) :
    p.dutyMin ≤ p.dutyMax ∧ p.dutyMax ≤ 255 := by
  simp only [wellFormedParams, limitsOk, Bool.and_eq_true, decide_eq_true_eq] at h
  tauto

/-- Under EXACT the stored reciprocal is the reciprocal of the stored period (00_scope R7 (c), R14). -/
theorem invP_of_exact_wellFormed {p : Params Rat} (h : wellFormedParams Exact.numerics p = true) :
    p.invP = 1 / p.period := by
  simp only [wellFormedParams, reciprocalOk, Exact.numerics, Bool.and_eq_true] at h
  obtain ⟨⟨⟨⟨-, hP, hInv⟩, -⟩, -⟩, -⟩ := h
  rw [of_decide_eq_true hInv, of_decide_eq_true hP]

/-- Step 1 over the rationals (41 R101). -/
theorem exact_pidIntegral (p : Params Rat) (e i pe : Rat) :
    pidIntegral Exact.numerics p e i pe = i + p.ki * p.period * (e + pe) / 2 := rfl

/-- Step 2 over the rationals: the two comparisons are a clamp by `max` and `min` (41 R102). -/
theorem exact_pidClamp {p : Params Rat} (hlim : p.dutyMin ≤ p.dutyMax) (x : Rat) :
    pidClamp Exact.numerics p x = max (p.dutyMin : Rat) (min (p.dutyMax : Rat) x) := by
  have hlim' : (p.dutyMin : Rat) ≤ p.dutyMax := by exact_mod_cast hlim
  simp only [pidClamp, Exact.numerics, decide_eq_true_eq]
  by_cases hhigh : (p.dutyMax : Rat) < x
  · rw [if_pos hhigh, min_eq_left hhigh.le, max_eq_right hlim']
  · rw [if_neg hhigh, min_eq_right (not_lt.mp hhigh)]
    by_cases hlow : x < p.dutyMin
    · rw [if_pos hlow, max_eq_left hlow.le]
    · rw [if_neg hlow, max_eq_right (not_lt.mp hlow)]

/-- Step 3 over the rationals: a division by `P` (41 R103, 90_conflicts C1). -/
theorem exact_pidDerivative {p : Params Rat} (h : wellFormedParams Exact.numerics p = true) (e pe : Rat) :
    pidDerivative Exact.numerics p e pe = (e - pe) / p.period := by
  change (e - pe) * p.invP = _
  rw [invP_of_exact_wellFormed h, mul_one_div]

/-- Step 4 over the rationals (41 R104). -/
theorem exact_pidOutput (p : Params Rat) (e i2 dIn : Rat) :
    pidOutput Exact.numerics p e i2 dIn = p.kp * e + i2 + p.kd * dIn := rfl

/-- A floor in the output band is the duty it is taken as (41 R112). -/
theorem toNat_dutyOfFloor {α : Type} {p : Params α} (hlim : p.dutyMax ≤ 255) {k : Int}
    (hlow : (p.dutyMin : Int) ≤ k) (hhigh : k ≤ (p.dutyMax : Int)) :
    ((dutyOfFloor p k).toNat : Int) = k := by
  rw [dutyOfFloor, if_pos ⟨hlow, hhigh⟩, BitVec.toNat_ofInt]
  omega

/-- Step 5 over the rationals (41 R105). -/
theorem exact_pidDuty {p : Params Rat} (hlim : p.dutyMax ≤ 255) (out : Rat) :
    ((pidDuty Exact.numerics p out).toNat : Int) =
      if (p.dutyMax : Rat) < out then (p.dutyMax : Int)
      else if out < (p.dutyMin : Rat) then 0 else out.floor := by
  simp only [pidDuty, Exact.numerics, decide_eq_true_eq]
  split_ifs with hhigh hlow
  · rw [BitVec.toNat_ofNat, Nat.mod_eq_of_lt (by omega)]
  · rfl
  · have hfloor_low : (p.dutyMin : Int) ≤ out.floor := Rat.le_floor_iff.mpr (by simpa using hlow)
    have hfloor_high : out.floor ≤ (p.dutyMax : Int) := by
      have hle : (out.floor : Rat) ≤ p.dutyMax := (Rat.floor_le out).trans (not_lt.mp hhigh)
      exact_mod_cast hle
    exact toNat_dutyOfFloor hlim hfloor_low hfloor_high

/-- Settles O21: each step of `pid_step` is its formula over the rationals. -/
theorem exactPidStepIsTheRealFormula : Obligations.ExactPidStepIsTheRealFormula := by
  unfold Obligations.ExactPidStepIsTheRealFormula
  intro p h e i pe
  obtain ⟨hlim, hmax⟩ := limits_of_exact_wellFormed h
  simp only [pidStep, exact_pidIntegral, exact_pidClamp hlim, exact_pidDerivative h, exact_pidOutput, true_and]
  exact exact_pidDuty hmax _

end Sys2Proof.Proofs
end

section
/-! Rounding to nearest, ties to even (O43): of an integer quotient, of a magnitude, of a signed number. -/

namespace Sys2Proof.Proofs

open Sys2Proof.F32 Sys2Proof.Laws

/-- A quotient halfway between two integers, rounded up or down, is rounded to the even one. -/
theorem divEven_even_of_tie {n d : Nat} (hd : 0 < d)
    (h : 2 * n + d = 2 * (divEven n d * d) ∨ 2 * n = 2 * (divEven n d * d) + d) : divEven n d % 2 = 0 := by
  have hn := Nat.div_add_mod' n d
  have hr := Nat.mod_lt n hd
  have hup : (n / d + 1) * d = n / d * d + d := Nat.succ_mul _ _
  rw [divEven] at h ⊢
  split_ifs at h ⊢ <;> omega

/-- No integer is nearer to `n / d` than the rounded quotient, and where another is equally near it is even. -/
theorem divEven_nearest (n : Nat) {d : Nat} (hd : 0 < d) (k : Nat) :
    |(divEven n d * d : Int) - n| ≤ |(k * d : Int) - n| ∧
      (|(divEven n d * d : Int) - n| = |(k * d : Int) - n| → k ≠ divEven n d → divEven n d % 2 = 0) := by
  rcases eq_or_ne k (divEven n d) with rfl | hne
  · exact ⟨le_rfl, fun _ h => absurd rfl h⟩
  have habove := two_divEven_le n hd
  have hbelow := le_two_divEven n hd
  have htie := divEven_even_of_tie (n := n) hd
  have hstep : k * d + d ≤ divEven n d * d ∨ divEven n d * d + d ≤ k * d := by
    rcases Nat.lt_or_gt_of_ne hne with h | h
    · exact .inl ((Nat.succ_mul _ _).symm.trans_le (Nat.mul_le_mul_right d h))
    · exact .inr ((Nat.succ_mul _ _).symm.trans_le (Nat.mul_le_mul_right d h))
  simp only [← Nat.cast_mul, Int.abs_eq_natAbs]
  generalize divEven n d * d = x at *
  generalize k * d = y at *
  refine ⟨by omega, fun heq _ => htie (by omega)⟩

/-- A pattern's last bit is its rounded significand's. -/
theorem roundMag_mod_two {n d : Nat} (h : roundMag n d < infMag) :
    roundMag n d % 2 = divEven n (d * 2 ^ lastPlace n d) % 2 := by
  rw [roundMag, infMag_eq] at *
  omega

/-- No pattern is nearer to `n / d` than the rounded magnitude, and where another is equally near it is even. -/
theorem roundMag_nearest {n d : Nat} (hd : 0 < d) (hfin : roundMag n d < infMag) (m : Nat) :
    |(magValue (roundMag n d) * d : Int) - n| ≤ |(magValue m * d : Int) - n| ∧
      (|(magValue (roundMag n d) * d : Int) - n| = |(magValue m * d : Int) - n| → m ≠ roundMag n d →
        roundMag n d % 2 = 0) := by
  have hD : 0 < d * 2 ^ lastPlace n d := by positivity
  have hval : magValue (roundMag n d) = divEven n (d * 2 ^ lastPlace n d) * 2 ^ lastPlace n d := by
    obtain ⟨h, -⟩ | ⟨-, h⟩ := roundMag_cases n hd
    · omega
    · exact h
  have hscaled (k : Nat) : ((k * 2 ^ lastPlace n d : Nat) * d : Int) = k * (d * 2 ^ lastPlace n d : Nat) := by
    push_cast
    ring
  rw [roundMag_mod_two hfin]
  by_cases hgrid : 2 ^ lastPlace n d ∣ magValue m
  case pos =>
    obtain ⟨k, hk⟩ := hgrid
    rw [Nat.mul_comm] at hk
    obtain ⟨hle, heven⟩ := divEven_nearest n hD k
    rw [← hscaled, ← hscaled, ← hval, ← hk] at hle heven
    refine ⟨hle, fun heq hne => heven heq ?_⟩
    rintro rfl
    exact hne (magValue_strictMono.injective (hk.trans hval.symm))
  case neg =>
    -- off the grid `m` lies in a lower binade, so below `2^23 * 2^lastPlace`, which is at most `n / d`
    have hpos : 0 < lastPlace n d := by
      by_contra hz
      exact hgrid (by rw [Nat.eq_zero_of_not_pos hz, Nat.pow_zero]; exact one_dvd _)
    have hm : m < (lastPlace n d + 1) * 2 ^ 23 := by
      by_contra hge
      exact hgrid (dvd_magValue (not_lt.mp hge))
    have hlt : magValue m < 2 ^ 23 * 2 ^ lastPlace n d := by
      have := magValue_strictMono hm
      rwa [← Nat.add_zero ((lastPlace n d + 1) * 2 ^ 23), magValue_normal _ 0 (by omega)] at this
    have hlt' : magValue m * d < 2 ^ 23 * (d * 2 ^ lastPlace n d) := by
      calc magValue m * d < 2 ^ 23 * 2 ^ lastPlace n d * d := Nat.mul_lt_mul_of_pos_right hlt hd
        _ = 2 ^ 23 * (d * 2 ^ lastPlace n d) := by ring
    have hn := le_of_lastPlace hd hpos
    obtain ⟨hle, -⟩ := divEven_nearest n hD (2 ^ 23)
    rw [← hscaled, ← hval] at hle
    have hstrict : |(magValue (roundMag n d) * d : Int) - n| < |(magValue m * d : Int) - n| := by
      simp only [← Nat.cast_mul, Int.abs_eq_natAbs] at hle ⊢
      omega
    exact ⟨hstrict.le, fun heq => absurd heq hstrict.ne⟩

/-- The same among the signed values of patterns: a negative one is farther than 0. -/
theorem roundMag_nearest_int {n d : Nat} (hd : 0 < d) (hfin : roundMag n d < infMag) {u : Int} {m : Nat}
    (hu : u.natAbs = magValue m) :
    |(magValue (roundMag n d) * d : Int) - n| ≤ |u * d - n| ∧
      (|(magValue (roundMag n d) * d : Int) - n| = |u * d - n| → u ≠ magValue (roundMag n d) →
        roundMag n d % 2 = 0) := by
  rcases Int.lt_or_le u 0 with hneg | hnonneg
  · have hud : u * d < 0 := mul_neg_of_neg_of_pos hneg (by exact_mod_cast hd)
    obtain ⟨hle, -⟩ := roundMag_nearest hd hfin 0
    rw [magValue_zero, Nat.cast_zero, zero_mul] at hle
    have hstrict : |(magValue (roundMag n d) * d : Int) - n| < |u * d - n| := by
      simp only [Int.abs_eq_natAbs] at hle ⊢
      omega
    exact ⟨hstrict.le, fun heq => absurd heq hstrict.ne⟩
  · obtain rfl : u = magValue m := by omega
    obtain ⟨hle, heven⟩ := roundMag_nearest hd hfin m
    refine ⟨hle, fun heq hne => heven heq ?_⟩
    rintro rfl
    exact hne rfl

/-- `x` is the number `s / d`, in units of 2^-149, rounded once. -/
def IsRounded (x : F32) (s : Int) (d : Nat) : Prop :=
  ∃ (neg : Bool) (n : Nat), x = rounded neg n d ∧ s = if neg then -(n : Int) else n

theorem isRounded_addFinite (a b : F32) : IsRounded (addFinite a b) (units a + units b) 1 := by
  by_cases h : units a + units b = 0
  · refine ⟨isNeg a && isNeg b, 0, ?_, by simp [h]⟩
    rw [addFinite, if_pos h, rounded, roundMag_zero Nat.one_pos]
  · refine ⟨decide (units a + units b < 0), (units a + units b).natAbs, ?_, ?_⟩
    · rw [addFinite, if_neg h]
    · simp only [decide_eq_true_eq]
      split_ifs <;> omega

theorem isRounded_fadd {a b : F32} (ha : isFinite a = true) (hb : isFinite b = true) :
    IsRounded (fadd a b) (units a + units b) 1 := by
  rw [fadd_of_finite ha hb]
  exact isRounded_addFinite a b

theorem isRounded_fsub {a b : F32} (ha : isFinite a = true) (hb : isFinite b = true) :
    IsRounded (fsub a b) (units a - units b) 1 := by
  rw [fsub_of_finite ha hb, Int.sub_eq_add_neg, ← units_neg]
  exact isRounded_addFinite a (F32.neg b)

theorem isRounded_fmul {a b : F32} (ha : isFinite a = true) (hb : isFinite b = true) :
    IsRounded (fmul a b) (units a * units b) one := by
  refine ⟨isNeg a != isNeg b, magUnits a * magUnits b, fmul_of_finite ha hb, ?_⟩
  rw [units, units]
  cases isNeg a <;> cases isNeg b <;> simp

theorem isRounded_fhalf {a : F32} (ha : isFinite a = true) : IsRounded (fhalf a) (units a) 2 :=
  ⟨isNeg a, magUnits a, fhalf_of_finite ha, rfl⟩

theorem getLsbD_zero_pack (neg : Bool) (m : Nat) : (pack neg m).getLsbD 0 = decide (m % 2 = 1) := by
  rw [pack, BitVec.getLsbD_ofNat, Nat.testBit_zero]
  cases neg <;> simp
  omega

/-- A finite number rounded once is nearest to the exact one, and its last bit is 0 where another number is equally
near (00_scope R13). -/
theorem IsRounded.nearest {x : F32} {s : Int} {d : Nat} (h : IsRounded x s d) (hd : 0 < d)
    (hfin : isFinite x = true) (z : F32) :
    |units x * d - s| ≤ |units z * d - s| ∧
      (|units x * d - s| = |units z * d - s| → units z ≠ units x → x.getLsbD 0 = false) := by
  obtain ⟨neg, n, rfl, rfl⟩ := h
  rw [isFinite_rounded, decide_eq_true_eq] at hfin
  have hbit (heven : roundMag n d % 2 = 0) : (rounded neg n d).getLsbD 0 = false := by
    rw [rounded, getLsbD_zero_pack, heven]
    rfl
  rw [units_rounded]
  cases neg with
  | false =>
    obtain ⟨hle, heven⟩ := roundMag_nearest_int hd hfin (natAbs_units z)
    exact ⟨hle, fun heq hne => hbit (heven heq hne)⟩
  | true =>
    have hz : (-units z).natAbs = magValue (mag z) := (Int.natAbs_neg _).trans (natAbs_units z)
    obtain ⟨hle, heven⟩ := roundMag_nearest_int hd hfin hz
    have hflip (u : Int) : |-u * d - -n| = |u * d - n| := by
      rw [← abs_neg]
      congr 1
      ring
    have hzflip := hflip (-units z)
    rw [neg_neg] at hzflip
    simp only [if_true]
    rw [hflip, hzflip]
    exact ⟨hle, fun heq hne => hbit (heven heq fun h => hne (neg_eq_iff_eq_neg.mp h))⟩

/-- Settles O43: each primitive rounds the exact result once. -/
theorem primitivesRoundToNearestEven : Obligations.PrimitivesRoundToNearestEven := by
  unfold Obligations.PrimitivesRoundToNearestEven
  intro a b z ha hb _
  simp only [List.forall_mem_cons]
  refine ⟨fun hfin => ?_, fun hfin => ?_, fun hfin => ?_, fun hfin => ?_, fun _ h => absurd h List.not_mem_nil⟩
  · exact (isRounded_fadd ha hb).nearest Nat.one_pos hfin z
  · exact (isRounded_fsub ha hb).nearest Nat.one_pos hfin z
  · exact (isRounded_fmul ha hb).nearest one_unit_pos hfin z
  · exact (isRounded_fhalf ha).nearest Nat.two_pos hfin z

end Sys2Proof.Proofs
end

section
/-! The range of the control law (O36): each intermediate of `pid_step` stays below 2^128 (41 R118, log 10). A bound is
carried from primitive to primitive; the bound on the errors is taken a little above E, so that it absorbs what the
roundings add and the chain keeps only a factor. -/

namespace Sys2Proof.Proofs

open Sys2Proof.Machine Sys2Proof.F32 Sys2Proof.Laws

/-! ## Bounded finite numbers -/

/-- `x` is finite with a magnitude of at most `B`. -/
def FinLe (x : F32) (B : ℚ) : Prop := isFinite x = true ∧ magVal x ≤ B

theorem finLe_of_magVal_le {x : F32} {B : ℚ} (h : magVal x ≤ B) (hB : B < 2 ^ 128) : FinLe x B :=
  ⟨isFinite_of_magVal_lt (h.trans_lt hB), h⟩

theorem finLe_self {x : F32} (h : isFinite x = true) : FinLe x (magVal x) := ⟨h, le_rfl⟩

theorem FinLe.mono {x : F32} {A B : ℚ} (h : FinLe x A) (hAB : A ≤ B) : FinLe x B := ⟨h.1, h.2.trans hAB⟩

theorem FinLe.nonneg {x : F32} {A : ℚ} (h : FinLe x A) : 0 ≤ A := (magVal_nonneg x).trans h.2

section Primitives

variable {a b : F32} {A B C : ℚ} (ha : FinLe a A) (hb : FinLe b B) (hlt : C < 2 ^ 128)
include ha hlt

theorem FinLe.fhalf (hC : A / 2 * (1 + 1 / 2 ^ 24) + 1 / 2 ^ 150 ≤ C) : FinLe (fhalf a) C := by
  refine finLe_of_magVal_le ((magVal_fhalf_le ha.1).trans (le_trans ?_ hC)) hlt
  linarith [ha.2]

include hb

theorem FinLe.fadd (hC : (A + B) * (1 + 1 / 2 ^ 24) + 1 / 2 ^ 150 ≤ C) : FinLe (fadd a b) C := by
  refine finLe_of_magVal_le ((magVal_fadd_le ha.1 hb.1).trans (le_trans ?_ hC)) hlt
  linarith [ha.2, hb.2]

theorem FinLe.fsub (hC : (A + B) * (1 + 1 / 2 ^ 24) + 1 / 2 ^ 150 ≤ C) : FinLe (fsub a b) C := by
  refine finLe_of_magVal_le ((magVal_fsub_le ha.1 hb.1).trans (le_trans ?_ hC)) hlt
  linarith [ha.2, hb.2]

theorem FinLe.fmul (hC : A * B * (1 + 1 / 2 ^ 24) + 1 / 2 ^ 150 ≤ C) : FinLe (fmul a b) C := by
  refine finLe_of_magVal_le ((magVal_fmul_le ha.1 hb.1).trans (le_trans ?_ hC)) hlt
  have hmul : magVal a * magVal b ≤ A * B := mul_le_mul ha.2 hb.2 (magVal_nonneg b) ha.nonneg
  linarith

end Primitives

theorem magVal_lt_of_isFinite {x : F32} (h : isFinite x = true) : magVal x < 2 ^ 128 := by
  have hlt : (magUnits x : ℚ) < ((2 ^ 277 : Nat) : ℚ) := by
    rw [← magValue_infMag, Nat.cast_lt]
    exact magUnits_lt_of_isFinite h
  have hpow : (2 : ℚ) ^ 128 * 2 ^ 149 = ((2 ^ 277 : Nat) : ℚ) := by
    rw [Nat.cast_pow, Nat.cast_ofNat, ← pow_add]
  rwa [magVal, div_lt_iff₀ (by positivity), hpow]

/-! ## The duty limits and the band -/

theorem num_natCast (k : Nat) : num (k : ℚ) = rounded false (k * one) 1 := by
  have hk : ¬ (k : ℚ) < 0 := not_lt.mpr (Nat.cast_nonneg k)
  simp [num, hk]

theorem units_num_natCast_nonneg (k : Nat) : 0 ≤ units (num (k : ℚ)) := by
  rw [num_natCast, units_rounded]
  exact Int.natCast_nonneg _

theorem magVal_num_natCast_le (k : Nat) : magVal (num (k : ℚ)) ≤ k * (1 + 1 / 2 ^ 24) + 1 / 2 ^ 150 := by
  have h := magValue_roundMag_le_rat (k * one) Nat.one_pos
  rw [num_natCast, magVal, magUnits_rounded, div_le_iff₀ (by positivity)]
  refine h.trans (le_of_eq ?_)
  push_cast [one]
  ring

theorem finLe_num_natCast {k : Nat} (hk : k ≤ 255) : FinLe (num (k : ℚ)) 256 := by
  have hk' : (k : ℚ) ≤ 255 := by exact_mod_cast hk
  exact finLe_of_magVal_le ((magVal_num_natCast_le k).trans (by linarith)) (by norm_num)

theorem finLe_num_zero {B : ℚ} (hB : 0 ≤ B) : FinLe (num 0) B := by
  have hnum : num 0 = 0#32 := by decide +kernel
  rw [hnum]
  exact ⟨by decide, by simpa [magVal, magUnits, mag] using hB⟩

/-- A number in the output band is not negative and at most DUTY_MAX. -/
theorem finLe_of_inBand (c : Configuration) {x : F32} (h : Safety.InBand F32.numerics c.params x) : FinLe x 256 := by
  obtain ⟨hfin, hlow, hhigh⟩ := h
  obtain ⟨hlim, hmax⟩ := limits_of_accepted c
  change isFinite x = true at hfin
  change F32.flt x (num (c.params.dutyMin : ℚ)) = false at hlow
  change F32.fgt x (num (c.params.dutyMax : ℚ)) = false at hhigh
  obtain ⟨hminFin, -⟩ := finLe_num_natCast (hlim.trans hmax)
  obtain ⟨hmaxFin, hmaxLe⟩ := finLe_num_natCast hmax
  rw [flt_of_notNaN (isNaN_of_isFinite hfin) (isNaN_of_isFinite hminFin), decide_eq_false_iff_not] at hlow
  rw [fgt_of_notNaN (isNaN_of_isFinite hfin) (isNaN_of_isFinite hmaxFin), decide_eq_false_iff_not] at hhigh
  have hmag : magUnits x ≤ magUnits (num (c.params.dutyMax : ℚ)) := by
    rw [← natAbs_units, ← natAbs_units]
    have := units_num_natCast_nonneg c.params.dutyMin
    omega
  refine ⟨hfin, le_trans ?_ hmaxLe⟩
  rw [magVal, magVal]
  gcongr

/-- The clamp gives one of the limits, or keeps its argument. -/
theorem FinLe.pidClamp (c : Configuration) {x : F32} {B : ℚ} (hx : FinLe x B) (hB : 256 ≤ B) :
    FinLe (pidClamp F32.numerics c.params x) B := by
  obtain ⟨hlim, hmax⟩ := limits_of_accepted c
  rw [Machine.pidClamp]
  split_ifs
  · exact (finLe_num_natCast hmax).mono hB
  · exact (finLe_num_natCast (hlim.trans hmax)).mono hB
  · exact hx

/-! ## The accepted range -/

/-- Units of 2^-149 in the number 1, as a rational. -/
theorem cast_one_units : ((one : Nat) : ℚ) = 2 ^ 149 := by
  rw [one, Nat.cast_pow, Nat.cast_ofNat]

theorem magVal_eq_div_one (x : F32) : magVal x = (magUnits x : ℚ) / (one : ℚ) := by
  rw [magVal, cast_one_units]

/-- E of 41 R118 as a rational. -/
def errorBoundVal (p : Params F32) : ℚ := (errorBound p : ℚ) / (one : ℚ)

theorem errorBoundVal_nonneg (p : Params F32) : 0 ≤ errorBoundVal p := by
  unfold errorBoundVal
  positivity

theorem one_units_pos_rat : (0 : ℚ) < one := by exact_mod_cast one_unit_pos

/-- The range checks are stated with both sides scaled to integers. -/
theorem lt_of_scaled_lt {x : ℚ} {n k : Nat} (h : n < 2 ^ 126 * one ^ k) (hx : x * (one : ℚ) ^ k = n) :
    x < 2 ^ 126 := by
  have h' : (n : ℚ) < 2 ^ 126 * (one : ℚ) ^ k := by exact_mod_cast h
  rw [← hx] at h'
  exact lt_of_mul_lt_mul_right h' (pow_pos one_units_pos_rat k).le

/-- The bound of 41 R118 in rationals. -/
theorem lawRange_val (c : Configuration) :
    (magVal c.params.kp + 2 * (magVal c.params.ki * magVal c.params.period)
        + 2 * (magVal c.params.kd * magVal c.params.invP) + 2) * errorBoundVal c.params
      + c.params.dutyMax < 2 ^ 126 := by
  obtain ⟨-, -, -, -, -, -, h, -⟩ := (accepted_iff c.params).mp c.accepted
  rw [lawRangeOk, decide_eq_true_eq] at h
  refine lt_of_scaled_lt h ?_
  have hone := one_units_pos_rat
  simp only [magVal_eq_div_one, errorBoundVal]
  push_cast
  field_simp

/-- The two factors of log 10 in rationals. -/
theorem factorRange_val (c : Configuration) :
    magVal c.params.ki * magVal c.params.period < 2 ^ 126 ∧
      2 * errorBoundVal c.params * magVal c.params.invP < 2 ^ 126 := by
  obtain ⟨-, -, -, -, -, -, -, h⟩ := (accepted_iff c.params).mp c.accepted
  rw [factorRangeOk, Bool.and_eq_true, decide_eq_true_eq, decide_eq_true_eq] at h
  obtain ⟨hkidt, hderiv⟩ := h
  have hone := one_units_pos_rat
  simp only [magVal_eq_div_one, errorBoundVal]
  refine ⟨lt_of_scaled_lt hkidt ?_, lt_of_scaled_lt hderiv ?_⟩ <;> push_cast <;> field_simp

theorem finLe_constant (c : Configuration) {x : F32} (h : x ∈ [c.params.period, c.params.invP, c.params.kp,
    c.params.ki, c.params.kd, c.params.setPoint, c.params.threshold]) : FinLe x (magVal x) :=
  finLe_self (constants_finite c x h)

/-- E with room for what the roundings near zero add. -/
def errorCap (p : Params F32) : ℚ := errorBoundVal p + 1 / 2 ^ 140

/-- Half the least subnormal, which a rounding can add, is small beside the cap. -/
theorem errorCap_ge (p : Params F32) : 1 / 2 ^ 140 ≤ errorCap p :=
  le_add_of_nonneg_left (errorBoundVal_nonneg p)

/-- The accepted range, in the products that the chain of 41 R107 meets. -/
structure RangeFacts (p : Params F32) : Prop where
  errorCap_le : 2 * errorCap p ≤ 65 / 64 * 2 ^ 126
  kp_le : magVal p.kp * errorCap p ≤ 65 / 64 * 2 ^ 126
  kidt_le : magVal p.ki * magVal p.period ≤ 2 ^ 126
  area_le : 2 * (magVal p.ki * magVal p.period) * errorCap p ≤ 65 / 64 * 2 ^ 126
  deriv_le : 2 * (errorCap p * magVal p.invP) ≤ 65 / 64 * 2 ^ 126
  dterm_le : 2 * (magVal p.kd * magVal p.invP) * errorCap p ≤ 65 / 64 * 2 ^ 126

/-- The room in `errorCap` costs little, whatever finite gains an E near zero lets through. -/
theorem rangeFacts (c : Configuration) : RangeFacts c.params := by
  have hlaw := lawRange_val c
  obtain ⟨hkidt, hderiv⟩ := factorRange_val c
  obtain ⟨-, hinv, hkp, -, hkd, -⟩ := by simpa only [List.forall_mem_cons] using constants_finite c
  replace hinv := magVal_lt_of_isFinite hinv
  replace hkp := magVal_lt_of_isFinite hkp
  replace hkd := magVal_lt_of_isFinite hkd
  have hE := errorBoundVal_nonneg c.params
  have hpE := mul_nonneg (magVal_nonneg c.params.kp) hE
  have hiE := mul_nonneg (mul_nonneg (magVal_nonneg c.params.ki) (magVal_nonneg c.params.period)) hE
  have hdE := mul_nonneg (mul_nonneg (magVal_nonneg c.params.kd) (magVal_nonneg c.params.invP)) hE
  have hkdinv : magVal c.params.kd * magVal c.params.invP ≤ 2 ^ 128 * 2 ^ 128 :=
    mul_le_mul hkd.le hinv.le (magVal_nonneg _) (by positivity)
  refine ⟨?_, ?_, hkidt.le, ?_, ?_, ?_⟩ <;> rw [errorCap] <;> linarith

/-- The error of a sensor code is within `errorCap` but for a factor. -/
theorem finLe_errorOf (c : Configuration) (sc : SensorCode) :
    FinLe (errorOf F32.numerics c.params sc) (65 / 64 * errorCap c.params) := by
  have hsum : magVal c.params.setPoint + magVal (translate c.params sc) ≤ errorBoundVal c.params := by
    rw [magVal_eq_div_one, magVal_eq_div_one, ← add_div, errorBoundVal]
    have := setPoint_add_translate_le c.params sc
    gcongr
    exact_mod_cast this
  have hcap := (rangeFacts c).errorCap_le
  have hE := errorBoundVal_nonneg c.params
  refine FinLe.fsub (finLe_constant c (by simp)) (finLe_self (translate_finite c sc)) (by linarith) ?_
  unfold errorCap
  linarith

/-- The earlier error is 0 or that of a sensor code. -/
theorem finLe_of_errorOfSomeCode (c : Configuration) {x : F32}
    (h : Safety.ErrorOfSomeCode F32.numerics c.params x) : FinLe x (65 / 64 * errorCap c.params) := by
  obtain rfl | ⟨sc, rfl⟩ := h
  · exact finLe_num_zero (finLe_errorOf c 0).nonneg
  · exact finLe_errorOf c sc

/-! ## The chain of 41 R107 -/

section Chain

variable (c : Configuration) {e i pe : F32} (he : FinLe e (65 / 64 * errorCap c.params))
  (hpe : FinLe pe (65 / 64 * errorCap c.params))

theorem finLe_kidt : FinLe (F32.fmul c.params.ki c.params.period)
    (65 / 64 * (magVal c.params.ki * magVal c.params.period) + 1 / 2 ^ 150) := by
  have hk := mul_nonneg (magVal_nonneg c.params.ki) (magVal_nonneg c.params.period)
  have hle := (rangeFacts c).kidt_le
  refine FinLe.fmul (finLe_constant c (by simp)) (finLe_constant c (by simp)) ?_ ?_ <;> linarith

include he in
theorem finLe_pterm : FinLe (F32.fmul c.params.kp e) (9 / 8 * 2 ^ 126) := by
  refine FinLe.fmul (finLe_constant c (by simp)) he (by norm_num) ?_
  linarith [(rangeFacts c).kp_le]

include he hpe

theorem finLe_esum : FinLe (F32.fadd e pe) (33 / 16 * errorCap c.params) := by
  have hcap := (rangeFacts c).errorCap_le
  have hge := errorCap_ge c.params
  refine FinLe.fadd he hpe ?_ ?_ <;> linarith

theorem finLe_ediff : FinLe (F32.fsub e pe) (33 / 16 * errorCap c.params) := by
  have hcap := (rangeFacts c).errorCap_le
  have hge := errorCap_ge c.params
  refine FinLe.fsub he hpe ?_ ?_ <;> linarith

theorem finLe_area2 :
    FinLe (F32.fmul (F32.fmul c.params.ki c.params.period) (F32.fadd e pe)) (9 / 8 * 2 ^ 126) := by
  have harea := (rangeFacts c).area_le
  have hcap := (rangeFacts c).errorCap_le
  refine FinLe.fmul (finLe_kidt c) (finLe_esum c he hpe) (by norm_num) ?_
  linarith

theorem finLe_inc :
    FinLe (F32.fhalf (F32.fmul (F32.fmul c.params.ki c.params.period) (F32.fadd e pe))) (5 / 8 * 2 ^ 126) :=
  (finLe_area2 c he hpe).fhalf (by norm_num) (by norm_num)

theorem finLe_pidIntegral (hi : FinLe i 256) :
    FinLe (pidIntegral F32.numerics c.params e i pe) (3 / 4 * 2 ^ 126) :=
  FinLe.fadd hi (finLe_inc c he hpe) (by norm_num) (by norm_num)

theorem finLe_pidDerivative : FinLe (pidDerivative F32.numerics c.params e pe)
    (17 / 8 * (errorCap c.params * magVal c.params.invP) + 1 / 2 ^ 150) := by
  have hderiv := (rangeFacts c).deriv_le
  have hnonneg := mul_nonneg ((by positivity : (0 : ℚ) ≤ 1 / 2 ^ 140).trans (errorCap_ge c.params))
    (magVal_nonneg c.params.invP)
  refine FinLe.fmul (finLe_ediff c he hpe) (finLe_constant c (by simp)) ?_ ?_ <;> linarith

theorem finLe_dterm :
    FinLe (F32.fmul c.params.kd (pidDerivative F32.numerics c.params e pe)) (9 / 8 * 2 ^ 126) := by
  have hdterm := (rangeFacts c).dterm_le
  have hkd := magVal_lt_of_isFinite (finLe_constant c (x := c.params.kd) (by simp)).1
  refine FinLe.fmul (finLe_constant c (by simp)) (finLe_pidDerivative c he hpe) (by norm_num) ?_
  linarith

theorem finLe_integ (hi : FinLe i 256) :
    FinLe (pidStep F32.numerics c.params e i pe).integ (3 / 4 * 2 ^ 126) :=
  (finLe_pidIntegral c he hpe hi).pidClamp c (by norm_num)

theorem finLe_s1 (hi : FinLe i 256) :
    FinLe (F32.fadd (F32.fmul c.params.kp e) (pidStep F32.numerics c.params e i pe).integ) (2 * 2 ^ 126) :=
  FinLe.fadd (finLe_pterm c he) (finLe_integ c he hpe hi) (by norm_num) (by norm_num)

theorem finLe_pidOutput (hi : FinLe i 256) :
    FinLe (pidOutput F32.numerics c.params e (pidStep F32.numerics c.params e i pe).integ
      (pidDerivative F32.numerics c.params e pe)) (13 / 4 * 2 ^ 126) :=
  FinLe.fadd (finLe_s1 c he hpe hi) (finLe_dterm c he hpe) (by norm_num) (by norm_num)

end Chain

/-- Settles O36: the bound on each of the thirteen values, in the order of 41 R107. -/
theorem noIntermediateOverflows : Obligations.NoIntermediateOverflows := by
  unfold Obligations.NoIntermediateOverflows
  intro c sc i pe
  have he := finLe_errorOf c sc
  intro p e i2 dIn hi hpe
  replace hi : FinLe i 256 := hi.elim (fun h => h ▸ finLe_num_zero (by norm_num)) (finLe_of_inBand c)
  replace hpe := finLe_of_errorOfSomeCode c hpe
  simp only [List.forall_mem_cons]
  exact ⟨he.1, (finLe_kidt c).1, (finLe_esum c he hpe).1, (finLe_area2 c he hpe).1, (finLe_inc c he hpe).1,
    (finLe_pidIntegral c he hpe hi).1, (finLe_integ c he hpe hi).1, (finLe_ediff c he hpe).1,
    (finLe_pidDerivative c he hpe).1, (finLe_pterm c he).1, (finLe_s1 c he hpe hi).1, (finLe_dterm c he hpe).1,
    (finLe_pidOutput c he hpe hi).1, fun _ h => absurd h List.not_mem_nil⟩

end Sys2Proof.Proofs
end

section
/-! The state's invariants and its reset values (10_state R25, R34 to R37; O29, O32 to O35, O37, O40). Every operation
is made of four register writes: the reset, the copy to the latch, and the two arms of a sampling event. What all four
keep, every step keeps. -/

namespace Sys2Proof.Proofs

open Sys2Proof.Machine Sys2Proof.F32 Sys2Proof.Laws Sys2Proof.Safety

/-! ## What a step does to the registers -/

section Operations

variable {α : Type} {N : Numerics α} {p : Params α}

/-- The two writes of `TICK` do not meet: the latch may as well be written first (43 R154). -/
theorem tickRegs_eq_sampleRegs_reloadRegs (ci : ControlInput) (sc : SensorCode) (r : Regs α) :
    tickRegs N p ci sc r = sampleRegs N p ci sc (reloadRegs r) := by
  obtain ⟨rfl, -⟩ | ⟨hci, -⟩ := sampleRegs_cases N p ci sc r
  · rfl
  · rw [tickRegs, sampleRegs_of_ne_zero N p hci, sampleRegs_of_ne_zero N p hci]
    rfl

/-- What the reset establishes and the other three register writes keep, every operation keeps. -/
theorem execRegs_keeps {P : Regs α → Prop} (hrst : ∀ temp, P (rstRegs N temp))
    (hreload : ∀ r, P r → P (reloadRegs r)) (hidle : ∀ r, P r → P (idleRegs N r))
    (hrunning : ∀ sc r, P r → P (runningRegs N p sc r)) (temp : α) (i : Instr) {r : Regs α} (hr : P r) :
    P (Exact.execRegs N p temp i r) := by
  have hsample (ci : ControlInput) (sc : SensorCode) {r : Regs α} (hr : P r) : P (sampleRegs N p ci sc r) := by
    obtain ⟨-, h⟩ | ⟨-, h⟩ := sampleRegs_cases N p ci sc r <;> rw [h]
    · exact hidle r hr
    · exact hrunning sc r hr
  cases i with
  | rst => exact hrst temp
  | nop => exact hr
  | reload => exact hreload r hr
  | sample ci sc => exact hsample ci sc hr
  | tick ci sc =>
    rw [Exact.execRegs, tickRegs_eq_sampleRegs_reloadRegs]
    exact hsample ci sc (hreload r hr)

end Operations

/-- The same of a step, whose configuration is that of the state it starts from. -/
theorem step_keeps {P : Regs F32 → Prop} {s t : State} (h : step s = .next t)
    (hrst : ∀ temp, P (rstRegs F32.numerics temp)) (hreload : ∀ r, P r → P (reloadRegs r))
    (hidle : ∀ r, P r → P (idleRegs F32.numerics r))
    (hrunning : ∀ sc r, P r → P (runningRegs F32.numerics s.cfg.params sc r)) (hs : P s.toRegs) :
    P t.toRegs := by
  rw [step_spec h]
  exact execRegs_keeps hrst hreload hidle hrunning _ _ hs

/-- Reset and `RST` leave the same registers (43 R150). -/
theorem reset_toRegs : State.reset.toRegs = rstRegs F32.numerics (Config.freeTemp 0) := rfl

/-! ## The safe registers -/

/-- The asymmetric deadband gives no duty between 0 and DUTY_MIN, whatever the numerics (41 R111). -/
theorem pidDuty_legal {α : Type} (N : Numerics α) {p : Params α} (hlim : p.dutyMin ≤ p.dutyMax)
    (hmax : p.dutyMax ≤ 255) (out : α) : LegalDuty p (pidDuty N p out) := by
  rw [pidDuty]
  split_ifs
  · right
    rw [BitVec.toNat_ofNat, Nat.mod_eq_of_lt (by omega)]
    exact ⟨hlim, le_rfl⟩
  · exact .inl rfl
  · exact dutyOfFloor_legal p hmax _

theorem safeRegs_rstRegs {α : Type} (N : Numerics α) (p : Params α) (temp : α) : SafeRegs N p (rstRegs N temp) :=
  ⟨rfl, fun _ => ⟨rfl, rfl, rfl, rfl⟩, .inl rfl, .inl rfl⟩

/-- Settles O32: the arms of a sampling event write gate and mode together, and the latch takes only a legal
`duty_next`. -/
theorem stepKeepsTheSafeRegisters : Obligations.StepKeepsTheSafeRegisters := by
  unfold Obligations.StepKeepsTheSafeRegisters
  intro s t hs h
  obtain ⟨hlim, hmax⟩ := limits_of_accepted s.cfg
  rw [step_cfg h]
  refine step_keeps h (safeRegs_rstRegs _ _) ?reload ?idle ?running hs
  case reload =>
    rintro r ⟨hgate, hcleared, hnext, -⟩
    exact ⟨hgate, hcleared, hnext, hnext⟩
  case idle =>
    rintro r ⟨-, -, -, hactive⟩
    exact ⟨rfl, fun _ => ⟨rfl, rfl, rfl, rfl⟩, .inl rfl, hactive⟩
  case running =>
    rintro sc r ⟨-, -, -, hactive⟩
    exact ⟨rfl, nofun, pidDuty_legal _ hlim hmax _, hactive⟩

/-- Settles O33: reset leaves the registers of `RST`. -/
theorem resetHasTheSafeRegisters : Obligations.ResetHasTheSafeRegisters := by
  unfold Obligations.ResetHasTheSafeRegisters
  rw [reset_toRegs]
  exact safeRegs_rstRegs _ _ _

/-! ## The bounded accumulator -/

theorem isNaN_num (q : ℚ) : isNaN (num q) = false := isNaN_rounded _ _ _

theorem units_num_natCast (k : Nat) : units (num (k : ℚ)) = magValue (roundMag (k * one) 1) := by
  rw [num_natCast, units_rounded]
  rfl

theorem units_num_natCast_mono {a b : Nat} (h : a ≤ b) : units (num (a : ℚ)) ≤ units (num (b : ℚ)) := by
  rw [units_num_natCast, units_num_natCast]
  have hround := roundMag_mono Nat.one_pos Nat.one_pos (Nat.mul_le_mul_right 1 (Nat.mul_le_mul_right one h))
  exact_mod_cast magValue_strictMono.monotone hround

/-- For a number that is no NaN the band is an interval of values; the upper limit keeps out infinity. -/
theorem inBand_iff_units (c : Configuration) {x : F32} (hx : isNaN x = false) :
    InBand F32.numerics c.params x ↔
      units (num (c.params.dutyMin : ℚ)) ≤ units x ∧ units x ≤ units (num (c.params.dutyMax : ℚ)) := by
  simp only [InBand, F32.numerics, flt_of_notNaN hx (isNaN_num _), fgt_of_notNaN hx (isNaN_num _),
    decide_eq_false_iff_not, not_lt]
  refine and_iff_right_of_imp fun ⟨hlow, hhigh⟩ => ?_
  have hmin := units_num_natCast_nonneg c.params.dutyMin
  have hmax := magUnits_lt_of_isFinite (finLe_num_natCast (limits_of_accepted c).2).1
  rw [← natAbs_units] at hmax
  apply isFinite_of_magUnits_lt
  rw [← natAbs_units]
  omega

/-- The clamp brings every number that is no NaN into the band (41 R110). -/
theorem inBand_pidClamp (c : Configuration) {x : F32} (hx : isNaN x = false) :
    InBand F32.numerics c.params (pidClamp F32.numerics c.params x) := by
  have hlim := units_num_natCast_mono (limits_of_accepted c).1
  simp only [pidClamp, F32.numerics, flt_of_notNaN hx (isNaN_num _), fgt_of_notNaN hx (isNaN_num _),
    decide_eq_true_eq]
  split_ifs with hhigh hlow
  · exact (inBand_iff_units c (isNaN_num _)).mpr ⟨hlim, le_rfl⟩
  · exact (inBand_iff_units c (isNaN_num _)).mpr ⟨le_rfl, hlim⟩
  · exact (inBand_iff_units c hx).mpr ⟨not_lt.mp hlow, not_lt.mp hhigh⟩

/-- From a bounded accumulator and an earlier error the block can compute, a Running step leaves the accumulator in
the band: by 41 R118 the clamp's argument is finite. -/
theorem inBand_integ_pidStep (c : Configuration) (sc : SensorCode) {i pe : F32}
    (hi : i = num 0 ∨ InBand F32.numerics c.params i) (hpe : ErrorOfSomeCode F32.numerics c.params pe) :
    InBand F32.numerics c.params
      (pidStep F32.numerics c.params (errorOf F32.numerics c.params sc) i pe).integ := by
  have hi' : FinLe i 256 := hi.elim (fun h => h ▸ finLe_num_zero (by norm_num)) (finLe_of_inBand c)
  have hint := finLe_pidIntegral c (finLe_errorOf c sc) (finLe_of_errorOfSomeCode c hpe) hi'
  exact inBand_pidClamp c (isNaN_of_isFinite hint.1)

theorem integBounded_rstRegs {α : Type} (N : Numerics α) (p : Params α) (temp : α) :
    IntegBounded N p (rstRegs N temp) :=
  ⟨.inl rfl, nofun, .inl rfl⟩

/-- Settles O34: Idle clears accumulator and error, a Running step clamps the one and computes the other. -/
theorem stepKeepsTheIntegralBounded : Obligations.StepKeepsTheIntegralBounded := by
  unfold Obligations.StepKeepsTheIntegralBounded
  intro s t hs h
  rw [step_cfg h]
  refine step_keeps h (integBounded_rstRegs _ _) (fun _ hr => hr) (fun _ _ => ?idle) ?running hs
  case idle => exact ⟨.inl rfl, nofun, .inl rfl⟩
  case running =>
    rintro sc r ⟨hinteg, -, herr⟩
    have hband := inBand_integ_pidStep s.cfg sc hinteg herr
    exact ⟨.inr hband, fun _ => hband, .inr ⟨sc, rfl⟩⟩

/-- Settles O35: reset leaves the registers of `RST`. -/
theorem resetHasTheIntegralBounded : Obligations.ResetHasTheIntegralBounded := by
  unfold Obligations.ResetHasTheIntegralBounded
  rw [reset_toRegs]
  exact integBounded_rstRegs _ _ _

/-! ## The gate, the latch and the reset values -/

/-- A closed gate keeps the heater off, whatever the latch holds (43 R158). -/
theorem heaterOff_of_gate_closed {α : Type} {r : Regs α} (h : r.genEnable = false) : HeaterOff r := by
  simp [HeaterOff, heaterOn256, outputs, h]

/-- Every step keeps the gate equal to the mode, whatever the other registers hold (10_state R35). -/
theorem step_keeps_gateIsMode {s t : State} (h : step s = .next t) (hs : GateIsMode s.toRegs) :
    GateIsMode t.toRegs :=
  step_keeps (P := GateIsMode) h (fun _ => rfl) (fun _ hr => hr) (fun _ _ => rfl) (fun _ _ _ => rfl) hs

/-- Settles O37: in Idle the gate, which is the mode, is closed. -/
theorem heaterIsOffInIdle : Obligations.HeaterIsOffInIdle := by
  unfold Obligations.HeaterIsOffInIdle
  intro s t hs h hidle
  have hgate := step_keeps_gateIsMode h hs
  rw [GateIsMode, runningFlag_eq, hidle] at hgate
  exact heaterOff_of_gate_closed hgate

/-- Settles O29: of the operations only `RST`, `RELOAD` and `TICK` write the latch. -/
theorem latchTakesOnlyTheOldHandoff : Obligations.LatchTakesOnlyTheOldHandoff := by
  unfold Obligations.LatchTakesOnlyTheOldHandoff
  intro s i
  refine ⟨_, exec_spec i s, ?_⟩
  cases i with
  | rst => exact rstRegs_dutyActive _ _
  | nop => rfl
  | reload => exact reloadRegs_dutyActive _
  | sample ci sc => exact sampleRegs_dutyActive _ _ ci sc _
  | tick ci sc => exact tickRegs_dutyActive _ _ _ sc ci

theorem num_zero : num 0 = 0x00000000#32 := by decide +kernel

/-- Settles O40: of the values only the zero of `num` needs its rounding. -/
theorem resetValuesAreThoseOfTheSpec : Obligations.ResetValuesAreThoseOfTheSpec := by
  unfold Obligations.ResetValuesAreThoseOfTheSpec
  exact ⟨rfl, num_zero, num_zero, rfl, rfl, rfl, rfl, rfl, rfl, rfl, rfl⟩

end Sys2Proof.Proofs
end

section
/-! The table of candidate set points, which no operation reads (20_memory R52; O39). Only the Running arm of a sampling
event reads the configuration, and of it neither the translator, nor the error, nor the control law, nor the at-setpoint
comparison names the table. -/

namespace Sys2Proof.Proofs

open Sys2Proof.Machine Sys2Proof.Laws

section SetPointTable

variable {α : Type} (N : Numerics α) (p : Params α) (tab : Vector α 4)

@[simp] theorem translate_setPointTable (sc : SensorCode) :
    translate { p with setPointTable := tab } sc = translate p sc := rfl

@[simp] theorem errorOf_setPointTable (sc : SensorCode) :
    errorOf N { p with setPointTable := tab } sc = errorOf N p sc := rfl

@[simp] theorem setpointFlag_setPointTable (e : α) :
    setpointFlag N { p with setPointTable := tab } e = setpointFlag N p e := rfl

@[simp] theorem pidStep_setPointTable (e i pe : α) :
    pidStep N { p with setPointTable := tab } e i pe = pidStep N p e i pe := rfl

@[simp] theorem runningRegs_setPointTable (sc : SensorCode) (r : Regs α) :
    runningRegs N { p with setPointTable := tab } sc r = runningRegs N p sc r := by
  simp only [runningRegs, translate_setPointTable, errorOf_setPointTable, setpointFlag_setPointTable,
    pidStep_setPointTable]

@[simp] theorem sampleRegs_setPointTable (ci : ControlInput) (sc : SensorCode) (r : Regs α) :
    sampleRegs N { p with setPointTable := tab } ci sc r = sampleRegs N p ci sc r := by
  by_cases hci : ci = 0
  · rw [hci, sampleRegs_zero, sampleRegs_zero]
  · rw [sampleRegs_of_ne_zero N _ hci, sampleRegs_of_ne_zero N _ hci, runningRegs_setPointTable]

/-- No operation's registers depend on the table, under any numerics (20_memory R52). -/
@[simp] theorem execRegs_setPointTable (temp : α) (i : Instr) (r : Regs α) :
    Exact.execRegs N { p with setPointTable := tab } temp i r = Exact.execRegs N p temp i r := by
  cases i with
  | rst => rfl
  | nop => rfl
  | reload => rfl
  | sample ci sc => exact sampleRegs_setPointTable N p tab ci sc r
  | tick ci sc => simp only [Exact.execRegs, tickRegs, sampleRegs_setPointTable]

end SetPointTable

/-- Settles O39: the state's own parameters are the other configuration's with another table, from which every operation
leaves the same registers. -/
theorem setPointTableIsNeverRead : Obligations.SetPointTableIsNeverRead := by
  unfold Obligations.SetPointTableIsNeverRead
  intro s c events i hc
  have hregs (temp : F32) : Exact.execRegs F32.numerics s.cfg.params temp i s.toRegs =
      Exact.execRegs F32.numerics c.params temp i s.toRegs := by
    rw [← hc]
    exact execRegs_setPointTable F32.numerics c.params _ temp i s.toRegs
  exact ⟨_, exec_spec i s, by simp only [exec_spec, hregs]⟩

end Sys2Proof.Proofs
end

section
/-! The event word, its fields and its decoding, traces and outputs (30_encoding R70 to R80; O1 to O6, O42, O45, O46).
A word is read as three numbers, its event bits `w.toNat / 2 ^ (8 + ciWidth)` and its two operand fields, and its
operation is a function of them (`decode_eq_operationOf`). -/

namespace Sys2Proof.Proofs

open Sys2Proof.Machine Sys2Proof.Laws

/-! ## The fields of an encoded operation -/

section Word

variable {ciWidth : Nat} (p : Inputs ciWidth)

/-- Above the operand fields the word holds `{rst, sample, reload}`. -/
theorem getLsbD_word_add (k : Nat) : p.word.getLsbD (k + (8 + ciWidth)) =
    (BitVec.ofBool p.rst ++ BitVec.ofBool p.sample ++ BitVec.ofBool p.reload).getLsbD k := by
  rw [Inputs.word, BitVec.getLsbD_append, if_neg (by omega), BitVec.getLsbD_append, if_neg (by omega)]
  congr 1
  omega

@[simp] theorem rstBit_word : rstBit p.word = p.rst := by
  rw [rstBit, show 10 + ciWidth = 2 + (8 + ciWidth) by omega, getLsbD_word_add]
  simp only [BitVec.getLsbD_append]
  simp

@[simp] theorem sampleBit_word : sampleBit p.word = p.sample := by
  rw [sampleBit, show 9 + ciWidth = 1 + (8 + ciWidth) by omega, getLsbD_word_add]
  simp only [BitVec.getLsbD_append]
  simp

@[simp] theorem reloadBit_word : reloadBit p.word = p.reload := by
  rw [reloadBit, ← Nat.zero_add (8 + ciWidth), getLsbD_word_add]
  simp only [BitVec.getLsbD_append]
  simp

@[simp] theorem scField_word : scField p.word = p.sc := BitVec.extractLsb'_append_eq_right

@[simp] theorem ciField_word : ciField p.word = p.ci.toNat := by
  have hci : p.word.extractLsb' 8 ciWidth = p.ci := by
    refine BitVec.eq_of_getLsbD_eq fun k hk => ?_
    simp [Inputs.word, BitVec.getLsbD_append, hk]
  rw [ciField, hci]

end Word

/-- Decoding undoes encoding (R71, R73): the fields of the word are those of the canonical inputs, and a control input
in range survives its field. -/
theorem decode_encode {ciWidth : Nat} {i : Instr} (h : i.wellFormed ciWidth = true) :
    decode (encode ciWidth i) = i := by
  cases i with
  | rst => simp [decode, encode, canonicalInputs]
  | nop => simp [decode, encode, canonicalInputs]
  | reload => simp [decode, encode, canonicalInputs]
  | sample ci sc =>
    have hci : ci % 2 ^ ciWidth = ci := Nat.mod_eq_of_lt (of_decide_eq_true h)
    simp [decode, encode, canonicalInputs, hci]
  | tick ci sc =>
    have hci : ci % 2 ^ ciWidth = ci := Nat.mod_eq_of_lt (of_decide_eq_true h)
    simp [decode, encode, canonicalInputs, hci]

/-- Settles O2, at every width by `decode_encode`. -/
theorem decodeOfEncodeIsTheOperation : Obligations.DecodeOfEncodeIsTheOperation := by
  unfold Obligations.DecodeOfEncodeIsTheOperation
  exact fun _ _ => decode_encode

/-! ## The fields of a word as numbers -/

section Fields

variable {ciWidth : Nat} (w : EventWord ciWidth)

theorem ciField_eq : ciField w = w.toNat / 2 ^ 8 % 2 ^ ciWidth := by
  rw [ciField, BitVec.extractLsb'_toNat, Nat.shiftRight_eq_div_pow]

theorem toNat_scField : (scField w).toNat = w.toNat % 2 ^ 8 := by
  rw [scField, BitVec.extractLsb'_toNat, Nat.shiftRight_zero]

theorem eventBits_lt : w.toNat / 2 ^ (8 + ciWidth) < 8 := by
  rw [Nat.div_lt_iff_lt_mul (by positivity)]
  calc w.toNat < 2 ^ (3 + ciWidth + 8) := w.isLt
    _ = 8 * 2 ^ (8 + ciWidth) := by ring

theorem reloadBit_eq : reloadBit w = (w.toNat / 2 ^ (8 + ciWidth)).testBit 0 := by
  rw [reloadBit, Nat.testBit_div_two_pow, BitVec.testBit_toNat, Nat.zero_add]

theorem sampleBit_eq : sampleBit w = (w.toNat / 2 ^ (8 + ciWidth)).testBit 1 := by
  rw [sampleBit, Nat.testBit_div_two_pow, BitVec.testBit_toNat, ← Nat.add_assoc]

theorem rstBit_eq : rstBit w = (w.toNat / 2 ^ (8 + ciWidth)).testBit 2 := by
  rw [rstBit, Nat.testBit_div_two_pow, BitVec.testBit_toNat, ← Nat.add_assoc]

end Fields

/-- The operation that the event bits `{rst, sample, reload}`, read as a number, ask for: from 4 on `rst` is set. -/
def operationOf (event : Nat) (ci : ControlInput) (sc : SensorCode) : Instr :=
  match event with
  | 0 => .nop
  | 1 => .reload
  | 2 => .sample ci sc
  | 3 => .tick ci sc
  | _ => .rst

theorem operationOf_of_four_le {event : Nat} (h : 4 ≤ event) (ci : ControlInput) (sc : SensorCode) :
    operationOf event ci sc = .rst := by
  obtain ⟨k, rfl⟩ := Nat.exists_eq_add_of_le' h
  rfl

/-- The decode of R73 as a function of the three numbers. -/
theorem decode_eq_operationOf {ciWidth : Nat} (w : EventWord ciWidth) :
    decode w = operationOf (w.toNat / 2 ^ (8 + ciWidth)) (ciField w) (scField w) := by
  have hlt := eventBits_lt w
  rw [decode, rstBit_eq, sampleBit_eq, reloadBit_eq]
  generalize w.toNat / 2 ^ (8 + ciWidth) = event at hlt ⊢
  interval_cases event <;> rfl

/-! ## The opcode table -/

/-- The rows' masks keep of a word its event bits at most. -/
theorem and_eventMask (w : EventWord 2) :
    w &&& (BitVec.allOnes 13 <<< 10) = BitVec.ofNat 13 (w.toNat / 2 ^ 10 * 2 ^ 10) := by
  apply BitVec.eq_of_toNat_eq
  rw [← BitVec.shiftLeft_ushiftRight, BitVec.toNat_shiftLeft, BitVec.toNat_ushiftRight,
    Nat.shiftRight_eq_div_pow, Nat.shiftLeft_eq, BitVec.toNat_ofNat]

/-- A row of the table looks at the three event bits alone. -/
theorem selects_eq_of_mem {row : OpRow} (hrow : row ∈ opcodeTable) (w : EventWord 2) :
    row.selects w = row.selects (BitVec.ofNat 13 (w.toNat / 2 ^ 10 * 2 ^ 10)) := by
  have hmask : ∀ r ∈ opcodeTable, (BitVec.allOnes 13 <<< 10) &&& r.mask = r.mask := by decide
  rw [← and_eventMask, OpRow.selects, OpRow.selects, BitVec.and_assoc, hmask row hrow]

theorem mnemonic_operationOf (event : Nat) (ci : ControlInput) (sc : SensorCode) :
    (operationOf event ci sc).mnemonic = (operationOf event 0 0).mnemonic := by
  unfold operationOf
  split <;> rfl

/-- R73 over the eight values of the event bits, with 0 in the operand fields. -/
theorem existsUnique_row_of_event : ∀ event < 8, ∃ row ∈ opcodeTable,
    row.selects (BitVec.ofNat 13 (event * 2 ^ 10)) = true ∧ row.mnemonic = (operationOf event 0 0).mnemonic ∧
      ∀ other ∈ opcodeTable, other.selects (BitVec.ofNat 13 (event * 2 ^ 10)) = true → other = row := by
  decide

/-- Settles O3: neither the rows nor the name of the operation see the operand fields, and of the event bits there are
eight values. -/
theorem everyWordSelectsExactlyOneRow : Obligations.EveryWordSelectsExactlyOneRow := by
  unfold Obligations.EveryWordSelectsExactlyOneRow
  intro w
  obtain ⟨row, hmem, hsel, hname, huniq⟩ := existsUnique_row_of_event _ (eventBits_lt w)
  refine ⟨row, hmem, ?_, ?_, fun other hother h => huniq other hother ?_⟩
  · rwa [selects_eq_of_mem hmem]
  · rw [decode_eq_operationOf, mnemonic_operationOf, hname]
  · rwa [← selects_eq_of_mem hother]

/-- Settles O1: each vector is evaluated. -/
theorem specEventWordsDecodeAsListed : Obligations.SpecEventWordsDecodeAsListed := by
  unfold Obligations.SpecEventWordsDecodeAsListed
  decide

/-- Settles O6: a number below 2^16 is the table word itself, and `eventWordOfNat` takes it below 2^13. -/
theorem onlyThirteenBitNumbersAreEventWords : Obligations.OnlyThirteenBitNumbersAreEventWords := by
  unfold Obligations.OnlyThirteenBitNumbersAreEventWords
  intro w hw
  rw [decodeTableWord, Nat.mod_eq_of_lt hw, eventWordOfNat]
  by_cases h : w < 2 ^ 13
  · rw [if_pos h, if_pos h]
  · rw [if_neg h, if_neg h]

/-! ## What an operation sees of its operands -/

/-- Of the control input a sampling event sees whether it is 0 (R72), and of the sensor code nothing where it is. -/
theorem sampleRegs_congr {α : Type} (N : Numerics α) (p : Params α) {ci ci' : ControlInput} {sc sc' : SensorCode}
    (hci : ci = 0 ↔ ci' = 0) (hsc : ci ≠ 0 → sc = sc') (r : Regs α) :
    sampleRegs N p ci sc r = sampleRegs N p ci' sc' r := by
  by_cases h : ci = 0
  · rw [h, hci.mp h, sampleRegs_zero, sampleRegs_zero]
  · rw [sampleRegs_of_ne_zero N p h, sampleRegs_of_ne_zero N p (mt hci.mpr h), hsc h]

/-- No operation sees more: only `SAMPLE` and `TICK` have operands, and both give them to the sampling event. -/
theorem exec_operationOf_congr {ci ci' : ControlInput} {sc sc' : SensorCode}
    (hci : ci = 0 ↔ ci' = 0) (hsc : ci ≠ 0 → sc = sc') (event : Nat) (s : State) :
    exec (operationOf event ci sc) s = exec (operationOf event ci' sc') s := by
  have hregs := sampleRegs_congr F32.numerics s.cfg.params hci hsc s.toRegs
  match event with
  | 0 => rfl
  | 1 => rfl
  | 2 => simp only [operationOf, exec, execSample, hregs]
  | 3 => simp only [operationOf, exec, execTick, tickRegs, hregs]
  | _ + 4 => rfl

/-- Settles O4: the decode is a function of the fields, and nonzero control inputs are alike to every operation. -/
theorem operandsAreTheFieldsAsTheyStand : Obligations.OperandsAreTheFieldsAsTheyStand := by
  unfold Obligations.OperandsAreTheFieldsAsTheyStand
  refine ⟨fun w => ⟨⟨ciField_eq w, toNat_scField w⟩, fun h => ?sample, fun h => ?tick⟩, fun p sc => ?table,
    fun ci ci' sc s hci hci' => ?alike⟩
  case sample => rw [decode_eq_operationOf, show w.toNat / 2 ^ (8 + 2) = 2 from h, operationOf]
  case tick => rw [decode_eq_operationOf, show w.toNat / 2 ^ (8 + 2) = 3 from h, operationOf]
  case table => exact List.getElem?_eq_getElem _
  case alike =>
    have hcongr := exec_operationOf_congr (sc := sc) (iff_of_false hci hci') (fun _ => rfl)
    exact ⟨hcongr 2 s, hcongr 3 s⟩

/-- Settles O5: `RST`, `NOP` and `RELOAD` have no operand in `operationOf`, and at control input 0 no operation sees the
sensor code. -/
theorem ignoredFieldsHaveNoEffect : Obligations.IgnoredFieldsHaveNoEffect := by
  unfold Obligations.IgnoredFieldsHaveNoEffect
  refine ⟨fun w w' => ⟨fun h h' => ?rst, fun h h' => ?nop, fun h h' => ?reload⟩, fun sc sc' s => ?idle, ?canonical⟩
  case rst =>
    rw [decode_eq_operationOf, decode_eq_operationOf, operationOf_of_four_le (by omega),
      operationOf_of_four_le (by omega)]
  case nop =>
    rw [decode_eq_operationOf, decode_eq_operationOf, show w.toNat / 2 ^ (8 + 2) = 0 from h,
      show w'.toNat / 2 ^ (8 + 2) = 0 from h', operationOf, operationOf]
  case reload =>
    rw [decode_eq_operationOf, decode_eq_operationOf, show w.toNat / 2 ^ (8 + 2) = 1 from h,
      show w'.toNat / 2 ^ (8 + 2) = 1 from h', operationOf, operationOf]
  case idle =>
    have hcongr := exec_operationOf_congr (ci := 0) (sc := sc) (sc' := sc') Iff.rfl (absurd rfl)
    exact ⟨hcongr 2 s, hcongr 3 s⟩
  case canonical => decide

/-- Settles O46: the two words agree in event bits and sensor code, and in their control inputs being 0 or not. -/
theorem anyControlInputWidthActsAsTheDefault : Obligations.AnyControlInputWidthActsAsTheDefault := by
  unfold Obligations.AnyControlInputWidthActsAsTheDefault
  intro ciWidth w v s hevent hsc hci
  have hsc' : scField w = scField v := by
    apply BitVec.eq_of_toNat_eq
    rw [toNat_scField, toNat_scField, hsc]
  rw [decode_eq_operationOf w, decode_eq_operationOf v, hevent]
  rw [← ciField_eq, ← ciField_eq] at hci
  exact exec_operationOf_congr hci (fun _ => hsc') _ s

/-! ## Traces and outputs -/

/-- The next step performs the operation whose encoding stands first. -/
theorem step_encode_cons (s : State) {i : Instr} (h : i.wellFormed s.ciWidth = true)
    (rest : List (EventWord s.ciWidth)) :
    step { s with events := encode s.ciWidth i :: rest } = exec i { s with events := rest } := by
  change exec (decode (encode s.ciWidth i)) { s with events := rest } = _
  rw [decode_encode h]

theorem run_succ_of_step (M : Host.Core) {s t : M.State} (h : M.step s = .next t) (k : Nat) :
    M.run (k + 1) s = M.run k t := by
  rw [Host.Core.run, h]

/-- A run begins with the operation whose encoding stands first, which leaves what `exec_spec` says. -/
theorem run_succ_encode_cons (k : Nat) (s : State) {i : Instr} (h : i.wellFormed s.ciWidth = true)
    (rest : List (EventWord s.ciWidth)) :
    core.run (k + 1) { s with events := encode s.ciWidth i :: rest } =
      core.run k
        { s with
          toRegs := Exact.execRegs F32.numerics s.cfg.params (Config.freeTemp s.freeCount) i s.toRegs
          events := rest
          freeCount := s.freeCount + drawsOf i } :=
  run_succ_of_step core ((step_encode_cons s h rest).trans (exec_spec i _)) k

/-- Settles O45: `RELOAD` then `SAMPLE` writes the registers of `TICK`, by `tickRegs_eq_sampleRegs_reloadRegs`. -/
theorem pseudoOperationsExpandAsListed : Obligations.PseudoOperationsExpandAsListed := by
  unfold Obligations.PseudoOperationsExpandAsListed
  refine ⟨rfl, fun _ => rfl, fun _ => rfl, fun _ _ => rfl, fun s ci sc rest hci => ?_⟩
  have hsample : (Instr.sample ci sc).wellFormed s.ciWidth = true := decide_eq_true hci
  have htick : (Instr.tick ci sc).wellFormed s.ciWidth = true := decide_eq_true hci
  refine ⟨{ s with
      toRegs := tickRegs F32.numerics s.cfg.params ci sc s.toRegs
      events := rest }, ?period, run_succ_encode_cons 0 s htick rest⟩
  case period =>
    rw [tickRegs_eq_sampleRegs_reloadRegs]
    exact (run_succ_encode_cons 1 s rfl (encode s.ciWidth (.sample ci sc) :: rest)).trans
      (run_succ_encode_cons 0 (s.withRegs (reloadRegs s.toRegs)) hsample rest)

/-- Settles O42: of the ports only `running` is not the register itself but the bit of `mode`. -/
theorem outputsAreCopiesOfTheRegisters : Obligations.OutputsAreCopiesOfTheRegisters := by
  unfold Obligations.OutputsAreCopiesOfTheRegisters
  intro s i
  refine ⟨_, exec_spec i s, rfl, rfl, rfl, ?running, rfl, rfl⟩
  case running => simp only [outputs, runningFlag_eq, decide_eq_true_eq]

end Sys2Proof.Proofs
end

section
/-! The translator (40_temperature_translator; O26, O27). The order of the table's neighbours is the order of all its
entries, and rounding keeps it in the error; the translator's output register is written, never read. -/

namespace Sys2Proof.Proofs

open Sys2Proof.Machine Sys2Proof.F32 Sys2Proof.Laws

/-! ## The order of temperatures and errors -/

/-- The check of R7 (e) on two neighbouring entries, which are finite, so that their comparison is one of values. -/
theorem units_translate_castSucc_le (c : Configuration) (i : Fin 255) :
    units (translate c.params (BitVec.ofFin i.castSucc)) ≤ units (translate c.params (BitVec.ofFin i.succ)) := by
  obtain ⟨-, -, -, -, hmono, -⟩ := (accepted_iff c.params).mp c.accepted
  have hneighbours : F32.flt (translate c.params (BitVec.ofFin i.succ))
      (translate c.params (BitVec.ofFin i.castSucc)) = false :=
    nonDecreasing_getElem F32.numerics _ hmono i (by rw [c.params.cal.full]; omega)
  rw [flt_of_notNaN (isNaN_of_isFinite (translate_finite c _)) (isNaN_of_isFinite (translate_finite c _)),
    decide_eq_false_iff_not] at hneighbours
  exact not_lt.mp hneighbours

/-- The table is in order over all pairs of codes (40 R95). -/
theorem units_translate_mono (c : Configuration) {sc sc' : SensorCode} (h : sc.toNat ≤ sc'.toNat) :
    units (translate c.params sc) ≤ units (translate c.params sc') := by
  have hmono : Monotone fun code : Fin 256 => units (translate c.params (BitVec.ofFin code)) :=
    Fin.monotone_iff_le_succ.mpr (units_translate_castSucc_le c)
  exact hmono (a := sc.toFin) (b := sc'.toFin) h

/-- Rounding a sum keeps the order of the exact sums, on either side of zero and across it. -/
theorem units_addFinite_mono {a b a' b' : F32} (h : units a + units b ≤ units a' + units b') :
    units (addFinite a b) ≤ units (addFinite a' b') := by
  have hround {x y : Int} (hxy : x.natAbs ≤ y.natAbs) :
      (magValue (roundMag x.natAbs 1) : Int) ≤ magValue (roundMag y.natAbs 1) := by
    exact_mod_cast magValue_strictMono.monotone
      (roundMag_mono Nat.one_pos Nat.one_pos (Nat.mul_le_mul_right 1 hxy))
  rw [units_addFinite, units_addFinite]
  split_ifs with hneg hneg'
  · exact neg_le_neg (hround (by omega))
  · exact (neg_nonpos.mpr (Int.natCast_nonneg _)).trans (Int.natCast_nonneg _)
  · omega
  · exact hround (by omega)

/-- A difference of finite numbers falls as its subtrahend rises. -/
theorem units_fsub_antitone {a b b' : F32} (ha : isFinite a = true) (hb : isFinite b = true)
    (hb' : isFinite b' = true) (h : units b ≤ units b') : units (fsub a b') ≤ units (fsub a b) := by
  rw [fsub_of_finite ha hb, fsub_of_finite ha hb']
  apply units_addFinite_mono
  rw [units_neg, units_neg]
  omega

/-- Settles O26: the table is in order, and the error is a rounded difference from the one set point. -/
theorem translatorIsMonotone : Obligations.TranslatorIsMonotone := by
  unfold Obligations.TranslatorIsMonotone
  intro c sc sc' h
  have htemp := units_translate_mono c h
  have hset : isFinite c.params.setPoint = true := constants_finite c _ (by simp)
  exact ⟨htemp, units_fsub_antitone hset (translate_finite c sc) (translate_finite c sc') htemp⟩

/-! ## The translator's output register -/

section TempReg

variable {α : Type} (N : Numerics α) (p : Params α)

/-- Only the Running arm of a sampling event translates (40 R93). -/
theorem sampleRegs_tempReg (ci : ControlInput) (sc : SensorCode) (r : Regs α) :
    (sampleRegs N p ci sc r).tempReg = if ci = 0 then r.tempReg else translate p sc := by
  obtain ⟨hci, h⟩ | ⟨hci, h⟩ := sampleRegs_cases N p ci sc r
  · rw [h, if_pos hci, idleRegs_tempReg]
  · rw [h, if_neg hci, runningRegs_tempReg]

/-- Neither arm of a sampling event reads `temp_reg`: but for that register (`y` stands in it) the outcome is the same
whatever it held. -/
theorem sampleRegs_tempReg_unread (x y : α) (ci : ControlInput) (sc : SensorCode) (r : Regs α) :
    { sampleRegs N p ci sc { r with tempReg := x } with tempReg := y } =
      { sampleRegs N p ci sc r with tempReg := y } := by
  by_cases hci : ci = 0
  · rw [hci, sampleRegs_zero, sampleRegs_zero]
    rfl
  · rw [sampleRegs_of_ne_zero N p hci, sampleRegs_of_ne_zero N p hci]
    rfl

/-- No operation reads `temp_reg`, under any numerics (40 R93). -/
theorem execRegs_tempReg_unread (x y temp : α) (i : Instr) (r : Regs α) :
    { Exact.execRegs N p temp i { r with tempReg := x } with tempReg := y } =
      { Exact.execRegs N p temp i r with tempReg := y } := by
  cases i with
  | rst => rfl
  | nop => rfl
  | reload => rfl
  | sample ci sc => exact sampleRegs_tempReg_unread N p x y ci sc r
  | tick ci sc =>
    simp only [Exact.execRegs, tickRegs_eq_sampleRegs_reloadRegs]
    exact sampleRegs_tempReg_unread N p x y ci sc (reloadRegs r)

end TempReg

/-- Settles O27: the sampling event's write of `temp_reg`, which `TICK` shares, and that no operation reads it. -/
theorem tempRegIsAWriteOnlyTrace : Obligations.TempRegIsAWriteOnlyTrace := by
  unfold Obligations.TempRegIsAWriteOnlyTrace
  refine ⟨fun s ci sc => ?sampling, fun s => ?other, fun s x i => ?unread⟩
  case sampling =>
    exact ⟨_, _, exec_spec (.sample ci sc) s, exec_spec (.tick ci sc) s,
      sampleRegs_tempReg F32.numerics s.cfg.params ci sc s.toRegs, tickRegs_tempReg _ _ _ sc ci⟩
  case other => exact ⟨_, _, exec_spec .nop s, exec_spec .reload s, rfl, reloadRegs_tempReg _⟩
  case unread =>
    refine ⟨_, _, exec_spec i s, exec_spec i { s with tempReg := x }, ?_⟩
    simp only [execRegs_tempReg_unread]

end Sys2Proof.Proofs
end

section
/-! The values of F32 results at zero: a result has a value that depends on the values of its operands alone, and zero
operands give zero, keep the other operand, or, where the first one is plus zero, leave no sign behind. -/

namespace Sys2Proof.Proofs

open Sys2Proof.F32 Sys2Proof.Laws

/-! ## Equal values -/

/-- Numbers of one value have one magnitude; they differ at most as the two zeros do. -/
theorem mag_congr {x y : F32} (h : units x = units y) : mag x = mag y := by
  apply magValue_strictMono.injective
  rw [← magUnits, ← magUnits, ← natAbs_units, ← natAbs_units, h]

theorem isFinite_congr {x y : F32} (h : units x = units y) : isFinite x = isFinite y := by
  rw [isFinite, isFinite, mag_congr h]

theorem isFinite_num_zero : isFinite (num 0) = true := by decide +kernel

theorem units_num_zero : units (num 0) = 0 := by decide +kernel

theorem isFinite_of_units_eq_zero {x : F32} (h : units x = 0) : isFinite x = true :=
  (isFinite_congr (h.trans units_num_zero.symm)).trans isFinite_num_zero

/-- The value of a number rounded once is a function of the exact number. -/
theorem IsRounded.units_eq {x : F32} {s : Int} {d : Nat} (h : IsRounded x s d) (hd : 0 < d) :
    units x = if s < 0 then -(magValue (roundMag s.natAbs d) : Int) else magValue (roundMag s.natAbs d) := by
  obtain ⟨neg, n, rfl, rfl⟩ := h
  rw [units_rounded]
  cases neg with
  | false => simp
  | true =>
    rcases Nat.eq_zero_or_pos n with rfl | hn
    · simp [roundMag_zero hd]
    · simp [hn]

theorem IsRounded.units_congr {x y : F32} {s : Int} {d : Nat} (hx : IsRounded x s d) (hy : IsRounded y s d)
    (hd : 0 < d) : units x = units y :=
  (hx.units_eq hd).trans (hy.units_eq hd).symm

theorem units_fmul_congr {a b b' : F32} (ha : isFinite a = true) (hb : isFinite b = true)
    (h : units b = units b') : units (fmul a b) = units (fmul a b') := by
  have hb' : isFinite b' = true := (isFinite_congr h).symm.trans hb
  have hx := isRounded_fmul ha hb
  rw [h] at hx
  exact hx.units_congr (isRounded_fmul ha hb') one_unit_pos

theorem units_fhalf_congr {a a' : F32} (ha : isFinite a = true) (h : units a = units a') :
    units (fhalf a) = units (fhalf a') := by
  have ha' : isFinite a' = true := (isFinite_congr h).symm.trans ha
  have hx := isRounded_fhalf ha
  rw [h] at hx
  exact hx.units_congr (isRounded_fhalf ha') Nat.two_pos

/-! ## Zero operands -/

theorem IsRounded.units_eq_zero {x : F32} {d : Nat} (h : IsRounded x 0 d) (hd : 0 < d) : units x = 0 := by
  simp [h.units_eq hd, roundMag_zero hd]

theorem units_fmul_zero_right {a z : F32} (ha : isFinite a = true) (hz : units z = 0) :
    units (fmul a z) = 0 := by
  have hx := isRounded_fmul ha (isFinite_of_units_eq_zero hz)
  rw [hz, Int.mul_zero] at hx
  exact hx.units_eq_zero one_unit_pos

theorem units_fmul_zero_left {a z : F32} (ha : isFinite a = true) (hz : units z = 0) :
    units (fmul z a) = 0 := by
  have hx := isRounded_fmul (isFinite_of_units_eq_zero hz) ha
  rw [hz, Int.zero_mul] at hx
  exact hx.units_eq_zero one_unit_pos

theorem units_fhalf_eq_zero {a : F32} (h : units a = 0) : units (fhalf a) = 0 := by
  have hx := isRounded_fhalf (isFinite_of_units_eq_zero h)
  rw [h] at hx
  exact hx.units_eq_zero Nat.two_pos

/-- A finite number is its own rounding. -/
theorem roundMag_natAbs_units {x : F32} (h : isFinite x = true) : roundMag (units x).natAbs 1 = mag x := by
  rw [isFinite, decide_eq_true_eq] at h
  rw [natAbs_units, magUnits, ← Nat.mul_one (magValue _), roundMag_magValue h.le Nat.one_pos]

theorem units_addFinite_of_units_eq_zero {a z : F32} (ha : isFinite a = true) (hz : units z = 0) :
    units (addFinite a z) = units a := by
  rw [units_addFinite, hz, Int.add_zero, roundMag_natAbs_units ha, ← magUnits, ← natAbs_units]
  split_ifs <;> omega

/-- Adding a zero keeps the value … -/
theorem units_fadd_zero_right {a z : F32} (ha : isFinite a = true) (hz : units z = 0) :
    units (fadd a z) = units a := by
  rw [fadd_of_finite ha (isFinite_of_units_eq_zero hz), units_addFinite_of_units_eq_zero ha hz]

/-- … on either side. -/
theorem units_fadd_zero_left {a z : F32} (ha : isFinite a = true) (hz : units z = 0) :
    units (fadd z a) = units a := by
  rw [fadd_of_finite (isFinite_of_units_eq_zero hz) ha, units_addFinite, Int.add_comm, ← units_addFinite,
    units_addFinite_of_units_eq_zero ha hz]

theorem decide_units_neg {a : F32} (h : units a ≠ 0) : decide (units a < 0) = isNeg a := by
  rw [units] at h ⊢
  cases hsign : isNeg a with
  | false => simp
  | true => simpa [hsign, Nat.pos_iff_ne_zero] using h

/-- Subtracting plus zero keeps the number itself, the sign of a zero included. -/
theorem fsub_num_zero {a : F32} (ha : isFinite a = true) : fsub a (num 0) = a := by
  have hz : units (F32.neg (num 0)) = 0 := by rw [units_neg, units_num_zero, Int.neg_zero]
  have hneg : isNeg (F32.neg (num 0)) = true := by decide +kernel
  have hmag := roundMag_natAbs_units ha
  rw [fsub_of_finite ha isFinite_num_zero, addFinite, hz, Int.add_zero]
  split_ifs with h
  · rw [h, Int.natAbs_zero, roundMag_zero Nat.one_pos] at hmag
    rw [hneg, Bool.and_true, hmag, pack_isNeg_mag]
  · rw [rounded, hmag, decide_units_neg h, pack_isNeg_mag]

/-- A sum with plus zero has the sign of its value: of the other operand's sign, where that is a zero, nothing is
left. -/
theorem fadd_num_zero_congr {x y : F32} (hx : isFinite x = true) (h : units x = units y) :
    fadd (num 0) x = fadd (num 0) y := by
  have hy : isFinite y = true := (isFinite_congr h).symm.trans hx
  have hpos : isNeg (num 0) = false := by decide +kernel
  simp only [fadd_of_finite isFinite_num_zero, hx, hy, addFinite, h, hpos, Bool.false_and]

end Sys2Proof.Proofs
end

section
/-! The PID controller under F32 (41_pid_controller R105 to R117; O17 to O20, O23 to O25) and its ranges under EXACT
(O22). -/

namespace Sys2Proof.Proofs

open Sys2Proof.Machine Sys2Proof.F32 Sys2Proof.Laws Sys2Proof.Safety

/-! ## The ranges of accumulator and duty -/

/-- Settles O18: step 2 clamps the result of step 1. -/
theorem integralLiesInTheOutputBand : Obligations.IntegralLiesInTheOutputBand := by
  unfold Obligations.IntegralLiesInTheOutputBand
  intro c e i pe h
  exact inBand_pidClamp c h

/-- Settles O19: each branch of step 5 gives a legal duty, whatever its output. -/
theorem dutyIsOffOrInTheBand : Obligations.DutyIsOffOrInTheBand := by
  unfold Obligations.DutyIsOffOrInTheBand
  intro c e i pe
  obtain ⟨hlim, hmax⟩ := limits_of_accepted c
  exact pidDuty_legal F32.numerics hlim hmax _

/-- Settles O22: the clamp by `max` and `min`, and the branches of step 5, which are legal under any numerics. -/
theorem exactIntegralAndDutyKeepTheirRanges : Obligations.ExactIntegralAndDutyKeepTheirRanges := by
  unfold Obligations.ExactIntegralAndDutyKeepTheirRanges
  intro p h e i pe
  obtain ⟨hlim, hmax⟩ := limits_of_exact_wellFormed h
  have hlim' : (p.dutyMin : Rat) ≤ p.dutyMax := by exact_mod_cast hlim
  refine ⟨?_, pidDuty_legal Exact.numerics hlim hmax _⟩
  simp only [pidStep, exact_pidClamp hlim]
  exact ⟨le_max_left _ _, max_le hlim' (min_le_left _ _)⟩

/-! ## The duty limits as Nums -/

/-- A number of at most 24 significant bits is kept by the rounding. -/
theorem magValue_roundMag_mul_two_pow {k e : Nat} (hk : k < 2 ^ 24) (hlt : k * 2 ^ e < magValue infMag) :
    magValue (roundMag (k * 2 ^ e) 1) = k * 2 ^ e := by
  have hcases := roundMag_cases (k * 2 ^ e) Nat.one_pos
  have hplace : lastPlace (k * 2 ^ e) 1 ≤ e := by
    have hbits : bitLength (k * 2 ^ e) ≤ 24 + e := by
      apply bitLength_lt
      rw [Nat.pow_add]
      exact Nat.mul_lt_mul_of_pos_right hk (by positivity)
    rw [lastPlace, Nat.div_one]
    omega
  generalize lastPlace (k * 2 ^ e) 1 = place at hcases hplace
  have hsplit : k * 2 ^ e = k * 2 ^ (e - place) * 2 ^ place := by
    rw [Nat.mul_assoc, ← Nat.pow_add, Nat.sub_add_cancel hplace]
  have hsig : divEven (k * 2 ^ e) (1 * 2 ^ place) * 2 ^ place = k * 2 ^ e := by
    rw [Nat.one_mul, hsplit, divEven_mul _ (by positivity)]
  rw [hsig] at hcases
  obtain ⟨-, hinf⟩ | ⟨-, hval⟩ := hcases
  · exact absurd hinf (not_le.mpr hlt)
  · exact hval

/-- The limits of a configuration are exact (41 R112). -/
theorem units_num_natCast_of_le {k : Nat} (hk : k ≤ 255) : units (num (k : ℚ)) = k * one := by
  have hlt : k * one < magValue infMag := by
    rw [magValue_infMag, one]
    omega
  rw [units_num_natCast, one, magValue_roundMag_mul_two_pow (by omega) hlt, ← one, Nat.cast_mul]

/-! ## The branches of step 5 -/

/-- Step 5, the duty read as a number (41 R105), where the third branch's floor is in the output band. -/
theorem toNat_pidDuty {α : Type} {N : Numerics α} {p : Params α} (hmax : p.dutyMax ≤ 255) {out : α}
    (hfloor : N.fgt out (N.num p.dutyMax) = false → N.flt out (N.num p.dutyMin) = false →
      (p.dutyMin : Int) ≤ N.ffloor out ∧ N.ffloor out ≤ (p.dutyMax : Int)) :
    ((pidDuty N p out).toNat : Int) =
      if N.fgt out (N.num p.dutyMax) then (p.dutyMax : Int)
      else if N.flt out (N.num p.dutyMin) then 0 else N.ffloor out := by
  rw [pidDuty]
  split_ifs with hhigh hlow
  · rw [BitVec.toNat_ofNat, Nat.mod_eq_of_lt (by omega)]
  · rfl
  · obtain ⟨hfloor_low, hfloor_high⟩ :=
      hfloor (Bool.eq_false_of_not_eq_true hhigh) (Bool.eq_false_of_not_eq_true hlow)
    exact toNat_dutyOfFloor hmax hfloor_low hfloor_high

section Duty

variable (c : Configuration) {out : F32}

/-- An output that passes both comparisons of step 5 passes those of the clamp, which brings it into the band. -/
theorem inBand_of_third_branch (hout : isNaN out = false) (hhigh : F32.fgt out (num c.params.dutyMax) = false)
    (hlow : F32.flt out (num c.params.dutyMin) = false) : InBand F32.numerics c.params out := by
  have hkept : pidClamp F32.numerics c.params out = out := by
    simp only [pidClamp, F32.numerics, hhigh, hlow, Bool.false_eq_true, if_false]
  rw [← hkept]
  exact inBand_pidClamp c hout

/-- The limits are whole numbers, so that the floor of a number in the band is in it too (41 R112). -/
theorem ffloor_of_inBand (h : InBand F32.numerics c.params out) :
    (c.params.dutyMin : Int) ≤ F32.ffloor out ∧ F32.ffloor out ≤ c.params.dutyMax := by
  obtain ⟨hlim, hmax⟩ := limits_of_accepted c
  have hfin : isFinite out = true := h.1
  obtain ⟨hlow, hhigh⟩ := (inBand_iff_units c (isNaN_of_isFinite hfin)).mp h
  rw [units_num_natCast_of_le (hlim.trans hmax)] at hlow
  rw [units_num_natCast_of_le hmax] at hhigh
  have hone : (0 : Int) < one := by exact_mod_cast one_unit_pos
  rw [ffloor_of_finite hfin]
  exact ⟨(Int.le_ediv_iff_mul_le hone).mpr hlow, Int.ediv_le_of_le_mul hone hhigh⟩

/-- Step 5 for an output that is no NaN. -/
theorem toNat_pidDuty_of_notNaN (hout : isNaN out = false) :
    ((pidDuty F32.numerics c.params out).toNat : Int) =
      if F32.fgt out (num c.params.dutyMax) then (c.params.dutyMax : Int)
      else if F32.flt out (num c.params.dutyMin) then 0 else F32.ffloor out :=
  toNat_pidDuty (N := F32.numerics) (limits_of_accepted c).2 fun hhigh hlow =>
    ffloor_of_inBand c (inBand_of_third_branch c hout hhigh hlow)

/-- Step 5 for an output in the band. -/
theorem toNat_pidDuty_of_inBand (h : InBand F32.numerics c.params out) :
    ((pidDuty F32.numerics c.params out).toNat : Int) = F32.ffloor out := by
  have hduty := toNat_pidDuty (N := F32.numerics) (limits_of_accepted c).2 fun _ _ => ffloor_of_inBand c h
  obtain ⟨-, hlow, hhigh⟩ := h
  rw [hhigh, hlow, if_neg Bool.false_ne_true, if_neg Bool.false_ne_true] at hduty
  exact hduty

end Duty

/-- Settles O17: `pid_step` is defined by the six steps, and of the duty `toNat_pidDuty_of_notNaN` speaks. -/
theorem pidStepIsTheSixSteps : Obligations.PidStepIsTheSixSteps := by
  unfold Obligations.PidStepIsTheSixSteps
  intro c e i pe
  exact ⟨rfl, rfl, toNat_pidDuty_of_notNaN c⟩

/-- Settles O20: the floor of an output in the band is in the band, and the duty is that floor. -/
theorem floorBranchIsExact : Obligations.FloorBranchIsExact := by
  unfold Obligations.FloorBranchIsExact
  intro c
  obtain ⟨hlim, hmax⟩ := limits_of_accepted c
  refine ⟨units_num_natCast_of_le (hlim.trans hmax), units_num_natCast_of_le hmax, fun out hout hhigh hlow => ?_⟩
  have hband := inBand_of_third_branch c hout hhigh hlow
  obtain ⟨hfloor_low, hfloor_high⟩ := ffloor_of_inBand c hband
  obtain ⟨k, hk⟩ := Int.eq_ofNat_of_zero_le ((Int.natCast_nonneg _).trans hfloor_low)
  have hduty := toNat_pidDuty_of_inBand c hband
  have hone : (0 : Int) < one := by exact_mod_cast one_unit_pos
  have hdiv : units out / (one : Int) = k := (ffloor_of_finite hband.1).symm.trans hk
  rw [hk] at hfloor_low hfloor_high hduty
  refine ⟨k, hk, by omega, by omega, ?below, ?above, by omega⟩
  case below =>
    rw [← hdiv]
    exact Int.ediv_mul_le _ hone.ne'
  case above =>
    rw [← hdiv]
    exact Int.lt_ediv_add_one_mul_self _ hone

/-! ## The first step after Idle -/

/-- From a cleared history the derivative is that of the error alone (41 R115). -/
theorem pidDerivative_num_zero (c : Configuration) {e : F32} (he : isFinite e = true) :
    pidDerivative F32.numerics c.params e (num 0) = F32.fmul e c.params.invP := by
  change F32.fmul (F32.fsub e (num 0)) c.params.invP = _
  rw [fsub_num_zero he]

/-- From a cleared history the increment is half a rectangle (41 R115). An error of minus zero has its sign lost in
the sum with the earlier one; the sum with the accumulator loses it in any case. -/
theorem pidIntegral_num_zero (c : Configuration) (sc : SensorCode) :
    pidIntegral F32.numerics c.params (errorOf F32.numerics c.params sc) (num 0) (num 0) =
      F32.fadd (num 0) (F32.fhalf (F32.fmul (F32.fmul c.params.ki c.params.period)
        (errorOf F32.numerics c.params sc))) := by
  have he := finLe_errorOf c sc
  have hpe := finLe_num_zero he.nonneg
  have hkidt := (finLe_kidt c).1
  have hsum := units_fadd_zero_right he.1 units_num_zero
  exact fadd_num_zero_congr (finLe_inc c he hpe).1 (units_fhalf_congr (finLe_area2 c he hpe).1
    (units_fmul_congr hkidt (finLe_esum c he hpe).1 hsum))

/-- What a Running step from a cleared history writes of the control law's results, `SAMPLE` and `TICK` alike. -/
theorem sampleRegs_of_cleared {α : Type} (N : Numerics α) (p : Params α) {ci : ControlInput} (hci : ci ≠ 0)
    (sc : SensorCode) {r : Regs α} (hinteg : r.integ = N.num 0) (hprev : r.prevErr = N.num 0) :
    (sampleRegs N p ci sc r).integ = (pidStep N p (errorOf N p sc) (N.num 0) (N.num 0)).integ ∧
      (sampleRegs N p ci sc r).dutyNext = (pidStep N p (errorOf N p sc) (N.num 0) (N.num 0)).duty ∧
      (sampleRegs N p ci sc r).prevErr = errorOf N p sc := by
  rw [sampleRegs_of_ne_zero N p hci, runningRegs_integ, runningRegs_dutyNext, hinteg, hprev]
  exact ⟨rfl, rfl, runningRegs_prevErr N p r sc⟩

/-- Settles O23: the Idle values are a cleared history, from which the first two steps have the shorter form. -/
theorem restartUsesAClearedHistory : Obligations.RestartUsesAClearedHistory := by
  unfold Obligations.RestartUsesAClearedHistory
  intro s ci sc hidle hcleared hci
  obtain ⟨hinteg, hprev, -, -⟩ := hcleared hidle
  have hregs := sampleRegs_of_cleared F32.numerics s.cfg.params hci sc hinteg hprev
  exact ⟨⟨_, exec_spec (.sample ci sc) s, hregs⟩, ⟨_, exec_spec (.tick ci sc) s, hregs⟩,
    pidDerivative_num_zero s.cfg (finLe_errorOf s.cfg sc).1, pidIntegral_num_zero s.cfg sc⟩

/-! ## Zero error from a cleared history -/

section ZeroError

variable (c : Configuration)

/-- Step 1 adds a zero to plus zero. -/
theorem pidIntegral_zero_error : pidIntegral F32.numerics c.params (num 0) (num 0) (num 0) = num 0 := by
  have hzero : F32.fadd (num 0) (num 0) = num 0 := by decide +kernel
  have hesum : units (F32.fadd (num 0) (num 0)) = 0 :=
    (units_fadd_zero_right isFinite_num_zero units_num_zero).trans units_num_zero
  have hinc := units_fhalf_eq_zero (units_fmul_zero_right (finLe_kidt c).1 hesum)
  exact (fadd_num_zero_congr (isFinite_of_units_eq_zero hinc) (hinc.trans units_num_zero.symm)).trans hzero

/-- Step 2 raises an accumulator of 0 to DUTY_MIN. -/
theorem pidClamp_num_zero : pidClamp F32.numerics c.params (num 0) = num c.params.dutyMin := by
  obtain ⟨hlim, hmax⟩ := limits_of_accepted c
  simp only [pidClamp, F32.numerics, flt_of_notNaN (isNaN_num _) (isNaN_num _),
    fgt_of_notNaN (isNaN_num _) (isNaN_num _), units_num_zero, decide_eq_true_eq]
  rw [if_neg (not_lt.mpr (units_num_natCast_nonneg _))]
  split_ifs with hlow
  · rfl
  · rw [units_num_natCast_of_le (hlim.trans hmax)] at hlow
    have hmin : c.params.dutyMin = 0 := by
      by_contra hne
      have hone := one_unit_pos
      exact hlow (by positivity)
    rw [hmin, Nat.cast_zero]

/-- Step 4 from a zero error has the value of the accumulator: proportional and derivative terms are zeros. -/
theorem units_pidOutput_zero_error {i2 : F32} (hi2 : isFinite i2 = true) :
    units (pidOutput F32.numerics c.params (num 0) i2 (pidDerivative F32.numerics c.params (num 0) (num 0))) =
      units i2 := by
  obtain ⟨-, hinv, hkp, -, hkd, -⟩ := by simpa only [List.forall_mem_cons] using constants_finite c
  have hderiv : units (F32.fmul (num 0) c.params.invP) = 0 :=
    units_fmul_zero_left hinv units_num_zero
  have hdterm := units_fmul_zero_right hkd hderiv
  have hs1 := units_fadd_zero_left hi2 (units_fmul_zero_right hkp units_num_zero)
  rw [pidDerivative_num_zero c isFinite_num_zero]
  exact (units_fadd_zero_right ((isFinite_congr hs1).trans hi2) hdterm).trans hs1

/-- Step 5 gives DUTY_MIN for an output of that value. -/
theorem pidDuty_of_units_eq_dutyMin {out : F32} (h : units out = units (num c.params.dutyMin)) :
    pidDuty F32.numerics c.params out = BitVec.ofNat 8 c.params.dutyMin := by
  obtain ⟨hlim, hmax⟩ := limits_of_accepted c
  have hmin := hlim.trans hmax
  have hfin : isFinite out = true := (isFinite_congr h).trans (finLe_num_natCast hmin).1
  have hband := (inBand_iff_units c (isNaN_of_isFinite hfin)).mpr
    ⟨h.ge, h.trans_le (units_num_natCast_mono hlim)⟩
  have hfloor : F32.ffloor out = c.params.dutyMin := by
    rw [ffloor_of_finite hfin, h, units_num_natCast_of_le hmin]
    exact Int.mul_ediv_cancel _ (by exact_mod_cast one_unit_pos.ne')
  have hduty := toNat_pidDuty_of_inBand c hband
  rw [hfloor] at hduty
  apply BitVec.eq_of_toNat_eq
  rw [BitVec.toNat_ofNat]
  omega

end ZeroError

/-- Settles O24: step by step, from the accumulator that stays 0 to the output that is DUTY_MIN. -/
theorem zeroErrorFromZeroGivesDutyMin : Obligations.ZeroErrorFromZeroGivesDutyMin := by
  unfold Obligations.ZeroErrorFromZeroGivesDutyMin
  intro c
  obtain ⟨hlim, hmax⟩ := limits_of_accepted c
  have hinteg : pidClamp F32.numerics c.params (pidIntegral F32.numerics c.params (num 0) (num 0) (num 0)) =
      num c.params.dutyMin := by rw [pidIntegral_zero_error, pidClamp_num_zero]
  have hout := units_pidOutput_zero_error c (finLe_num_natCast (hlim.trans hmax)).1
  rw [pidStep, hinteg, pidDuty_of_units_eq_dutyMin c hout]

/-! ## The at-setpoint indicator -/

/-- Only the Running arm of a sampling event compares; the Idle arm clears the indicator (41 R109). -/
theorem sampleRegs_atSetpoint {α : Type} (N : Numerics α) (p : Params α) (ci : ControlInput) (sc : SensorCode)
    (r : Regs α) :
    (sampleRegs N p ci sc r).atSetpoint = if ci = 0 then false else setpointFlag N p (errorOf N p sc) := by
  obtain ⟨hci, h⟩ | ⟨hci, h⟩ := sampleRegs_cases N p ci sc r
  · rw [h, if_pos hci, idleRegs_atSetpoint]
  · rw [h, if_neg hci, runningRegs_atSetpoint]

/-- Error and threshold are finite, so that their comparison is one of values (41 R109). -/
theorem setpointFlag_errorOf (c : Configuration) (sc : SensorCode) :
    setpointFlag F32.numerics c.params (errorOf F32.numerics c.params sc) =
      decide (|units (errorOf F32.numerics c.params sc)| < units c.params.threshold) := by
  have herr := isNaN_of_isFinite (finLe_errorOf c sc).1
  have hthreshold := isNaN_of_isFinite (constants_finite c c.params.threshold (by simp))
  rw [← units_fabs]
  exact flt_of_notNaN ((isNaN_fabs _).trans herr) hthreshold

/-- Settles O25: `SAMPLE` and `TICK` share the sampling event's write of `at_setpoint`. -/
theorem atSetpointIsTheCurrentErrorAlone : Obligations.AtSetpointIsTheCurrentErrorAlone := by
  unfold Obligations.AtSetpointIsTheCurrentErrorAlone
  intro s ci sc
  have hflag := sampleRegs_atSetpoint F32.numerics s.cfg.params ci sc s.toRegs
  refine ⟨_, _, exec_spec (.sample ci sc) s, exec_spec (.tick ci sc) s, rfl, fun hci => ?_, fun hci => ?_⟩
  · rw [if_pos hci] at hflag
    exact hflag
  · rw [if_neg hci, setpointFlag_errorOf] at hflag
    exact hflag

end Sys2Proof.Proofs
end

section
/-! The power state machine (42 R132, R134, R136, R138; O13, O28). `SAMPLE` and `TICK` perform the same sampling event,
which sees nothing of the old state in choosing mode and gate. -/

namespace Sys2Proof.Proofs

open Sys2Proof.Machine Sys2Proof.Laws

/-! ## The two operations that hold a sampling event -/

theorem exec_sample (s : State) (ci : ControlInput) (sc : SensorCode) :
    exec (.sample ci sc) s = .next (s.withRegs (sampleRegs F32.numerics s.cfg.params ci sc s.toRegs)) := rfl

theorem exec_tick (s : State) (ci : ControlInput) (sc : SensorCode) :
    exec (.tick ci sc) s = .next (s.withRegs (tickRegs F32.numerics s.cfg.params ci sc s.toRegs)) := rfl

/-! ## Mode, gate and the Idle arm -/

section Registers

variable {α : Type} (N : Numerics α) (p : Params α)

/-- At control input 0 `TICK` clears what `SAMPLE` clears, around the copy to the latch (43 R154). -/
theorem tickRegs_zero (sc : SensorCode) (r : Regs α) : tickRegs N p 0 sc r = idleRegs N (reloadRegs r) := by
  rw [tickRegs_eq_sampleRegs_reloadRegs, sampleRegs_zero]

variable (ci : ControlInput) (sc : SensorCode) (r : Regs α)

/-- Each arm of a sampling event writes the mode that chose it (42 R132). -/
theorem sampleRegs_mode : (sampleRegs N p ci sc r).mode = nextMode ci := by
  obtain ⟨rfl, h⟩ | ⟨hci, h⟩ := sampleRegs_cases N p ci sc r
  · rw [h, idleRegs_mode, nextMode_zero]
  · rw [h, runningRegs_mode, nextMode_of_ne_zero hci]

/-- The Running arm opens the gate and the Idle arm closes it (42 R138). -/
theorem sampleRegs_genEnable : (sampleRegs N p ci sc r).genEnable = decide (ci ≠ 0) := by
  obtain ⟨hci, h⟩ | ⟨hci, h⟩ := sampleRegs_cases N p ci sc r
  · rw [h, idleRegs_genEnable, decide_eq_false (not_not.mpr hci)]
  · rw [h, runningRegs_genEnable, decide_eq_true hci]

end Registers

/-- Settles O13: at control input 0 the sampling event is its Idle arm, for `TICK` after the copy to the latch. -/
theorem zeroKnobEntersIdle : Obligations.ZeroKnobEntersIdle := by
  unfold Obligations.ZeroKnobEntersIdle
  intro s sc
  constructor
  · rw [exec_sample, sampleRegs_zero]
    rfl
  · rw [exec_tick, tickRegs_zero]
    rfl

/-- Settles O28: the sampling event's writes of mode and gate, which `TICK` shares; `RELOAD` writes only the latch. -/
theorem modeAndGateFollowTheKnob : Obligations.ModeAndGateFollowTheKnob := by
  unfold Obligations.ModeAndGateFollowTheKnob
  refine ⟨fun s ci sc => ?sampling, fun s => ?other⟩
  case sampling =>
    exact ⟨_, _, exec_sample s ci sc, exec_tick s ci sc, sampleRegs_mode _ _ ci sc _, tickRegs_mode _ _ _ sc ci,
      sampleRegs_genEnable _ _ ci sc _, tickRegs_genEnable _ _ _ sc ci⟩
  case other =>
    exact ⟨_, _, exec_spec .nop s, exec_spec .reload s, rfl, reloadRegs_mode _, rfl, reloadRegs_genEnable _⟩

end Sys2Proof.Proofs
end

section
/-! The five operations (43 R150 to R156, R159, R161; O9 to O12, O14, O15, O30, O31). Each has one equation for `exec`;
a run is followed word by word, where a `NOP` only consumes its word. -/

namespace Sys2Proof.Proofs

open Sys2Proof.Machine Sys2Proof.Laws Sys2Proof.Safety

/-! ## Single operations -/

theorem exec_nop (s : State) : exec .nop s = .next s := rfl

theorem exec_reload (s : State) : exec .reload s = .next (s.withRegs (reloadRegs s.toRegs)) := rfl

/-- The operation of a 13-bit word, by the number its event bits hold (R73). -/
theorem decode_of_eventBits {w : EventWord 2} {event : Nat} (h : w.toNat / 1024 = event) :
    decode w = operationOf event (ciField w) (scField w) := by
  rw [decode_eq_operationOf, show w.toNat / 2 ^ (8 + 2) = event from h]

/-- The latch already holds what a second reload copies: the slot is read, not emptied (43 R152). -/
@[simp] theorem reloadRegs_reloadRegs {α : Type} (r : Regs α) : reloadRegs (reloadRegs r) = reloadRegs r := rfl

/-- Settles O9: every operation has the next state of `exec_spec`, and a step takes the word presented first. -/
theorem everyEventWordHasANextState : Obligations.EveryEventWordHasANextState := by
  unfold Obligations.EveryEventWordHasANextState
  intro s w
  exact ⟨_, (step_presentFirst s w).trans (exec_spec (decode w) s), exec_spec (decode w) s⟩

/-- Settles O10: `rstRegs` sets every register, and the decoder looks at `rst` before the strobes. -/
theorem rstEstablishesTheInitialState : Obligations.RstEstablishesTheInitialState := by
  unfold Obligations.RstEstablishesTheInitialState
  refine ⟨fun s => ?state, fun w h => ?wins⟩
  case state => exact ⟨Config.freeTemp s.freeCount, s.freeCount + 1, exec_spec .rst s⟩
  case wins => rw [decode, if_pos (show rstBit w = true from h)]

/-- Settles O12: a reload writes `reloadRegs`, which is idempotent. -/
theorem reloadCopiesTheHandoffRegister : Obligations.ReloadCopiesTheHandoffRegister := by
  unfold Obligations.ReloadCopiesTheHandoffRegister
  refine ⟨exec_reload, fun w => decode_of_eventBits, fun s t u ht hu => ?twice⟩
  case twice =>
    rw [exec_reload, Host.Outcome.next.injEq] at ht hu
    rw [← hu, ← ht, withRegs_toRegs, withRegs_withRegs, reloadRegs_reloadRegs]

/-- Settles O14: the two arms of the sampling event, written out. -/
theorem samplePerformsTheSamplingEvent : Obligations.SamplePerformsTheSamplingEvent := by
  unfold Obligations.SamplePerformsTheSamplingEvent
  intro s ci sc t e res
  rw [exec_sample]
  obtain ⟨hci, harm⟩ | ⟨hci, harm⟩ := sampleRegs_cases F32.numerics s.cfg.params ci sc s.toRegs
  · rw [harm, if_pos hci]
    rfl
  · rw [harm, if_neg hci]
    rfl

/-- Settles O15: the copy to the latch and the sampling event write different registers, so that their order does not
matter. -/
theorem tickIsReloadThenSample : Obligations.TickIsReloadThenSample := by
  unfold Obligations.TickIsReloadThenSample
  intro s ci sc
  refine ⟨_, _, _, exec_reload s, exec_sample s ci sc, exec_tick s ci sc, rfl, ?composed⟩
  case composed =>
    rw [exec_sample, withRegs_toRegs, withRegs_withRegs, withRegs_cfg, tickRegs_eq_sampleRegs_reloadRegs]

/-! ## The gate over the latch -/

/-- A latch of 0 keeps the heater off, the gate open or closed (43 R158). -/
theorem heaterOff_of_dutyActive_zero {α : Type} {r : Regs α} (h : r.dutyActive = 0) : HeaterOff r := by
  simp [HeaterOff, heaterOn256, outputs, h]

/-- Settles O31: the Idle arm closes the gate, and in Idle the duty that a `TICK` copies is 0. -/
theorem gateOverridesTheLatch : Obligations.GateOverridesTheLatch := by
  unfold Obligations.GateOverridesTheLatch
  refine ⟨fun _ => heaterOff_of_gate_closed, fun s sc => ?intoIdle, fun s ci sc hidle hcleared _ => ?reopening⟩
  case intoIdle =>
    refine ⟨_, exec_tick s 0 sc, ?_⟩
    rw [withRegs_toRegs, tickRegs_zero]
    exact ⟨rfl, rfl, rfl, heaterOff_of_gate_closed rfl⟩
  case reopening =>
    obtain ⟨-, -, hnext, -⟩ := hcleared hidle
    exact ⟨_, exec_tick s ci sc, hnext, heaterOff_of_dutyActive_zero hnext⟩

/-! ## Runs with `NOP`s -/

theorem step_cons (s : State) (w : EventWord s.ciWidth) (rest : List (EventWord s.ciWidth)) :
    step { s with events := w :: rest } = exec (decode w) { s with events := rest } := rfl

/-- A run passes over waiting `NOP`s, one step for each, and goes on as if they had not been there. -/
theorem run_length_add_nops (s : State) {ws : List (EventWord s.ciWidth)} (hws : ∀ w ∈ ws, decode w = .nop)
    (rest : List (EventWord s.ciWidth)) (k : Nat) :
    core.run (ws.length + k) { s with events := ws ++ rest } = core.run k { s with events := rest } := by
  induction ws with
  | nil => rw [List.length_nil, Nat.zero_add, List.nil_append]
  | cons w ws ih =>
    obtain ⟨hw, hws⟩ := List.forall_mem_cons.mp hws
    have hstep : step { s with events := w :: (ws ++ rest) } = .next { s with events := ws ++ rest } := by
      rw [step_cons, hw, exec_nop]
    rw [List.length_cons, Nat.add_right_comm, List.cons_append, run_succ_of_step core hstep, ih hws]

/-- A `TICK` reached over `NOP`s applies the duty that waited in the handoff register (43 R156). -/
theorem run_nops_tick (s : State) {ws : List (EventWord s.ciWidth)} (hws : ∀ v ∈ ws, decode v = .nop)
    {w : EventWord s.ciWidth} {ci : ControlInput} {sc : SensorCode} (hw : decode w = .tick ci sc)
    (rest : List (EventWord s.ciWidth)) :
    ∃ u, core.run (ws.length + 1) { s with events := ws ++ w :: rest } = .next u ∧ u.dutyActive = s.dutyNext := by
  have hstep := (step_cons s w rest).trans (by rw [hw, exec_tick])
  exact ⟨_, (run_length_add_nops s hws (w :: rest) 1).trans (run_succ_of_step core hstep 0), rfl⟩

/-- Settles O11: the run over the words is `run_length_add_nops` with no step after them. -/
theorem nopsKeepTheState : Obligations.NopsKeepTheState := by
  unfold Obligations.NopsKeepTheState
  exact ⟨exec_nop, fun w => decode_of_eventBits, fun s ws rest hws => run_length_add_nops s hws rest 0⟩

/-- Settles O30: `TICK` and `RST` leave the waiting words, over which `run_nops_tick` reaches the next `TICK`; after
`RST` the duty that waits is 0. -/
theorem dutyTakesEffectOnePeriodLater : Obligations.DutyTakesEffectOnePeriodLater := by
  unfold Obligations.DutyTakesEffectOnePeriodLater
  refine ⟨fun s t ws rest ci ci' sc sc' w hws hw ht => ?afterTick, fun s t ws rest ci sc w hws hw ht => ?afterRst⟩
  case afterTick =>
    rw [exec_tick, Host.Outcome.next.injEq] at ht
    subst ht
    exact run_nops_tick (s.withRegs (tickRegs F32.numerics s.cfg.params ci sc s.toRegs)) hws hw rest
  case afterRst =>
    rw [exec_spec, Host.Outcome.next.injEq] at ht
    subst ht
    exact run_nops_tick (s.drawn.withRegs (rstRegs F32.numerics (Config.freeTemp s.freeCount))) hws hw rest

end Sys2Proof.Proofs
end

section
/-! Reset and hazards (70 R205; O16). A reload that comes after the sampling event of its boundary reads the handoff
register that event has just written. -/

namespace Sys2Proof.Proofs

open Sys2Proof.Machine Sys2Proof.Laws

/-- Settles O16: a reload copies the handoff register of whatever state it finds, here the one `SAMPLE` left. -/
theorem reloadAfterSampleHasNoLatency : Obligations.ReloadAfterSampleHasNoLatency := by
  unfold Obligations.ReloadAfterSampleHasNoLatency
  intro s ci sc
  exact ⟨_, _, exec_sample s ci sc, exec_reload _, reloadRegs_dutyActive _, reloadRegs_dutyNext _⟩

end Sys2Proof.Proofs
end

section
/-! Overflow of a sum (00_scope R13; O44): the magnitude pattern of infinity is reached exactly from half a last place
above the greatest finite number on. -/

namespace Sys2Proof.Proofs

open Sys2Proof.F32 Sys2Proof.Laws

/-- Rounding keeps the order, so the two neighbouring numbers at the threshold decide for all others: half a last place
above the greatest finite number is a tie, which goes to the even pattern, infinity's. -/
theorem roundMag_eq_infMag_iff (n : Nat) : roundMag n 1 = infMag ↔ 2 ^ 277 - 2 ^ 252 ≤ n := by
  have hthreshold : infMag ≤ roundMag (2 ^ 277 - 2 ^ 252) 1 := by decide +kernel
  have hbelow : roundMag (2 ^ 277 - 2 ^ 252 - 1) 1 < infMag := by decide +kernel
  constructor
  · intro hinf
    by_contra hlt
    have hmono := roundMag_mono Nat.one_pos Nat.one_pos
      (Nat.mul_le_mul_right 1 (Nat.le_sub_one_of_lt (not_le.mp hlt)))
    exact absurd (hinf ▸ hmono) (not_le.mpr hbelow)
  · intro hle
    have hmono := roundMag_mono Nat.one_pos Nat.one_pos (Nat.mul_le_mul_right 1 hle)
    exact le_antisymm (roundMag_le n 1) (hthreshold.trans hmono)

theorem isInf_addFinite_iff (a b : F32) :
    isInf (addFinite a b) = true ↔ 2 ^ 277 - 2 ^ 252 ≤ (units a + units b).natAbs := by
  rw [isInf, decide_eq_true_eq, mag_addFinite, roundMag_eq_infMag_iff]

/-- Settles O44: the sum's magnitude is the exact sum's, rounded, and a rounded magnitude is no NaN's. -/
theorem sumOverflowsToInfinity : Obligations.SumOverflowsToInfinity := by
  unfold Obligations.SumOverflowsToInfinity
  intro a b ha hb
  rw [fadd_of_finite ha hb, isInf_addFinite_iff, Int.abs_eq_natAbs, Int.ofNat_le]
  exact ⟨isNaN_addFinite a b, Iff.rfl⟩

end Sys2Proof.Proofs
end

section
/-! The well-formedness of configurations (00_scope R7; O41): each check of the acceptance test, turned from a comparison
of patterns into one of values, and the refusal of every other configuration. -/

namespace Sys2Proof.Proofs

open Sys2Proof.Machine Sys2Proof.F32 Sys2Proof.Laws

/-- R7 (b); the stored constant is finite, so that its comparison is one of values. -/
theorem period_pos (c : Configuration) : 0 < c.params.periodLit ∧ 0 < units c.params.period := by
  obtain ⟨-, hperiod, -⟩ := (accepted_iff c.params).mp c.accepted
  rw [periodOk, Bool.and_eq_true, decide_eq_true_eq] at hperiod
  obtain ⟨hlit, hstored⟩ := hperiod
  have hfinite : isFinite c.params.period = true := constants_finite c _ (by simp)
  change flt (num 0) c.params.period = true at hstored
  rw [flt_of_notNaN (isNaN_num 0) (isNaN_of_isFinite hfinite), units_num_zero, decide_eq_true_eq] at hstored
  exact ⟨hlit, hstored⟩

/-- R7 (c). -/
theorem period_invP_eq_num (c : Configuration) :
    c.params.period = num c.params.periodLit ∧ c.params.invP = num (1 / c.params.periodLit) := by
  obtain ⟨-, -, hrecip, -⟩ := (accepted_iff c.params).mp c.accepted
  rw [reciprocalOk, Bool.and_eq_true, decide_eq_true_eq, decide_eq_true_eq] at hrecip
  exact hrecip

/-- R7 (d), constants and both tables. -/
theorem params_finite (c : Configuration) :
    ∀ x ∈ [c.params.period, c.params.invP, c.params.kp, c.params.ki, c.params.kd, c.params.setPoint,
        c.params.threshold] ++ c.params.cal.entries ++ c.params.setPointTable.toList, isFinite x = true := by
  obtain ⟨-, -, -, hfinite, -⟩ := (accepted_iff c.params).mp c.accepted
  rw [finiteOk, ← List.all_append, ← List.all_append] at hfinite
  exact List.all_eq_true.mp hfinite

/-- R7 (e), from the order of the table over all pairs of codes. -/
theorem units_calRead_le_succ (c : Configuration) {k : Nat} (hk : k < 255) :
    units (calRead c.params (BitVec.ofNat 8 k)) ≤ units (calRead c.params (BitVec.ofNat 8 (k + 1))) := by
  refine units_translate_mono c ?_
  rw [BitVec.toNat_ofNat, BitVec.toNat_ofNat]
  omega

/-- R7 (f). -/
theorem threshold_nonneg (c : Configuration) : 0 ≤ units c.params.threshold := by
  obtain ⟨-, -, -, -, -, hthreshold, -⟩ := (accepted_iff c.params).mp c.accepted
  have hfinite : isFinite c.params.threshold = true := constants_finite c _ (by simp)
  rw [thresholdOk, Bool.not_eq_true'] at hthreshold
  change flt c.params.threshold (num 0) = false at hthreshold
  rw [flt_of_notNaN (isNaN_of_isFinite hfinite) (isNaN_num 0), units_num_zero, decide_eq_false_iff_not] at hthreshold
  exact not_lt.mp hthreshold

/-- Only accepted parameters are instantiated, and these are well-formed (log 9). -/
theorem instanceOf_of_not_wellFormed {p : Params F32} (h : wellFormedParams F32.numerics p = false) :
    instanceOf p = .error .illFormedConfig := by
  have hrefused : ¬ acceptedParams p = true := by simp [acceptedParams, h]
  rw [instanceOf, dif_neg hrefused]

/-- Settles O41: the items (a) to (f) of 00_scope R7 in turn, and the refusal. -/
theorem onlyWellFormedConfigurationsRun : Obligations.OnlyWellFormedConfigurationsRun := by
  unfold Obligations.OnlyWellFormedConfigurationsRun
  exact ⟨fun c => ⟨limits_of_accepted c, period_pos c, period_invP_eq_num c, params_finite c,
    fun _ => units_calRead_le_succ c, threshold_nonneg c⟩, fun _ => instanceOf_of_not_wellFormed⟩

end Sys2Proof.Proofs
end

section
/-! The input wires (30_encoding R71, R77; O7). Definite levels are the levels of a bit vector, most significant first,
so that a bundle of wires holds either an undefined level or the levels of the number that is read from it. -/

namespace Sys2Proof.Proofs

/-! ## The levels of a word -/

/-- The level of a wire that carries a bit, the inverse of `Level.bit` on definite levels. -/
def levelOf (b : Bool) : Level := if b then .high else .low

/-- The levels of a bit vector, most significant first, as `Pins` holds them. -/
def levelsOf {n : Nat} (w : BitVec n) : List Level :=
  (List.range n).map fun k => levelOf (w.getLsbD (n - 1 - k))

theorem undefined_ne_levelOf (b : Bool) : Level.undefined ≠ levelOf b := by
  cases b <;> decide

theorem undefined_not_mem_levelsOf {n : Nat} (w : BitVec n) : Level.undefined ∉ levelsOf w := by
  intro h
  obtain ⟨k, -, hk⟩ := List.mem_map.mp h
  exact undefined_ne_levelOf _ hk.symm

theorem levelsOf_cons {n : Nat} (b : Bool) (w : BitVec n) : levelsOf (BitVec.cons b w) = levelOf b :: levelsOf w := by
  rw [levelsOf, List.range_succ_eq_map, List.map_cons, List.map_map]
  congr 1
  · rw [BitVec.getLsbD_cons, if_pos (by omega)]
  · refine List.map_congr_left fun k hk => ?_
    rw [List.mem_range] at hk
    rw [Function.comp_apply, BitVec.getLsbD_cons, if_neg (by omega)]
    congr 2
    omega

/-- The more significant end comes first (00_scope R9). -/
theorem levelsOf_append {n m : Nat} (x : BitVec n) (y : BitVec m) : levelsOf (x ++ y) = levelsOf x ++ levelsOf y := by
  rw [levelsOf, List.range_add, List.map_append, List.map_map]
  congr 1 <;> refine List.map_congr_left fun k hk => ?_ <;> rw [List.mem_range] at hk
  · rw [BitVec.getLsbD_append, if_neg (by omega)]
    congr 2
    omega
  · rw [Function.comp_apply, BitVec.getLsbD_append, if_pos (by omega)]
    congr 2
    omega

theorem levelsOf_ofBool (b : Bool) : levelsOf (BitVec.ofBool b) = [levelOf b] := by
  cases b <;> rfl

theorem levelsOf_word {ciWidth : Nat} (i : Inputs ciWidth) : levelsOf i.word =
    [levelOf i.rst, levelOf i.sample, levelOf i.reload] ++ levelsOf i.ci ++ levelsOf i.sc := by
  simp only [Inputs.word, levelsOf_append, levelsOf_ofBool, List.cons_append, List.nil_append]

/-! ## Reading the wires -/

/-- A wire is undefined, or it carries a bit. -/
theorem bit_cases (l : Level) : (l.bit = none ∧ l = .undefined) ∨ ∃ b, l.bit = some b ∧ l = levelOf b := by
  cases l with
  | low => exact .inr ⟨false, rfl, rfl⟩
  | high => exact .inr ⟨true, rfl, rfl⟩
  | undefined => exact .inl ⟨rfl, rfl⟩

/-- A bundle of `n` wires has an undefined one, or it carries a number of `n` bits. -/
theorem levelsValue_cases (ls : List Level) {n : Nat} (hn : ls.length = n) :
    (levelsValue ls = none ∧ Level.undefined ∈ ls) ∨
      ∃ w : BitVec n, levelsValue ls = some w.toNat ∧ ls = levelsOf w := by
  induction ls generalizing n with
  | nil =>
    subst hn
    exact .inr ⟨0#0, rfl, rfl⟩
  | cons l rest ih =>
    subst hn
    obtain ⟨hl, rfl⟩ | ⟨b, hl, rfl⟩ := bit_cases l
    · exact .inl ⟨by rw [levelsValue, hl], List.mem_cons_self⟩
    · obtain ⟨hrest, hmem⟩ | ⟨w, hrest, hw⟩ := ih rfl
      · exact .inl ⟨by rw [levelsValue, hl, hrest], List.mem_cons_of_mem _ hmem⟩
      · refine .inr ⟨BitVec.cons b w, ?_, by rw [levelsOf_cons, ← hw]⟩
        rw [levelsValue, hl, hrest, BitVec.toNat_cons']
        cases b <;> simp [Nat.shiftLeft_eq]

/-- All wires, in the order of the event word's bits from the highest down (R71). -/
def wireLevels {ciWidth : Nat} (p : Pins ciWidth) : List Level :=
  [p.rst, p.sample, p.reload] ++ p.ci.toList ++ p.sc.toList

/-- What reading the wires can do, said once: it refuses an undefined level (R77), or gives the word that has the
levels of the wires. -/
theorem read_cases {ciWidth : Nat} (p : Pins ciWidth) :
    (∃ port, p.read = .error (.undefinedInput port) ∧ Level.undefined ∈ wireLevels p) ∨
      ∃ w, p.read = .ok w ∧ wireLevels p = levelsOf w := by
  obtain ⟨hrst, hrst'⟩ | ⟨rst, hrst, hrst'⟩ := bit_cases p.rst
  · exact .inl ⟨"rst", by rw [Pins.read, hrst], by simp [wireLevels, hrst']⟩
  obtain ⟨hsample, hsample'⟩ | ⟨sample, hsample, hsample'⟩ := bit_cases p.sample
  · exact .inl ⟨"sample", by rw [Pins.read, hrst, hsample], by simp [wireLevels, hsample']⟩
  obtain ⟨hreload, hreload'⟩ | ⟨reload, hreload, hreload'⟩ := bit_cases p.reload
  · exact .inl ⟨"reload", by rw [Pins.read, hrst, hsample, hreload], by simp [wireLevels, hreload']⟩
  obtain ⟨hci, hmem⟩ | ⟨ci, hci, hci'⟩ := levelsValue_cases p.ci.toList p.ci.length_toList
  · exact .inl ⟨"ci", by rw [Pins.read, hrst, hsample, hreload, hci],
      List.mem_append_left _ (List.mem_append_right _ hmem)⟩
  obtain ⟨hsc, hmem⟩ | ⟨sc, hsc, hsc'⟩ := levelsValue_cases p.sc.toList p.sc.length_toList
  · exact .inl ⟨"sc", by rw [Pins.read, hrst, hsample, hreload, hci, hsc], List.mem_append_right _ hmem⟩
  refine .inr ⟨(Inputs.mk rst sample reload ci sc).word, ?_, ?_⟩
  · rw [Pins.read, hrst, hsample, hreload, hci, hsc]
    simp only [BitVec.ofNat_toNat, BitVec.setWidth_eq]
  · rw [wireLevels, levelsOf_word, hrst', hsample', hreload', hci', hsc']

/-- Settles O7: the two outcomes of `read_cases` exclude each other, as a word has no undefined level. -/
theorem onlyDefiniteLevelsAreTaken : Obligations.OnlyDefiniteLevelsAreTaken := by
  unfold Obligations.OnlyDefiniteLevelsAreTaken
  intro ciWidth p
  change (_ ↔ Level.undefined ∉ wireLevels p) ∧ (_ ↔ Level.undefined ∈ wireLevels p) ∧
    ∀ w, p.read = .ok w → wireLevels p = levelsOf w
  obtain ⟨port, hread, hmem⟩ | ⟨w, hread, hlevels⟩ := read_cases p
  · simp [hread, hmem]
  · simp [hread, hlevels, undefined_not_mem_levelsOf]

end Sys2Proof.Proofs
end
